-- ==== Sys2Proof/Word.lean ====
section
/-! DEFINITION. The one word of the hardware: an unsigned byte (R10, R12). -/

namespace Sys2Proof

/-- A register, a memory cell, the PC, FL and every address are 8 bits wide (R10). -/
abbrev Byte := BitVec 8

end Sys2Proof
end

