-- ==== Sys2Proof/Config.lean ====
section
/-! DEFINITION. The named parameters of R11 and the constants of R10 and R61. -/

namespace Sys2Proof

/-- `SHR_MODE` (R11, R105). -/
inductive ShrMode where
  /-- SHR shifts right, the default. -/
  | right
  /-- SHR shifts left, the behaviour of the source program. -/
  | asSourceLeft
  deriving DecidableEq, Repr

/-- `ZERO_OPCODE` (R11, R87). -/
inductive ZeroOpcode where
  /-- Opcode 0x00 leaves the PC where it is, the default. -/
  | spin
  /-- Opcode 0x00 raises ZeroSpin, the "hardened build". -/
  | fault
  deriving DecidableEq, Repr

/-- The parameters of R11 that change what the core does.
`MAX_STEPS` bounds an executor and is no part of the core (R90); see `runGranted`. -/
structure Params where
  /-- `HAS_AND`: byte 0xA8 decodes as AND. -/
  hasAnd : Bool
  shrMode : ShrMode
  zeroOpcode : ZeroOpcode
  deriving DecidableEq, Repr

/-- R11: "the default is the hardware this spec describes". -/
def Config.defaults : Params := { hasAnd := true, shrMode := .right, zeroOpcode := .spin }

/-- R11: `MAX_STEPS` is none by default. -/
def Config.defaultMaxSteps : Option Nat := none

/-- R23: the reset value of the stack pointer. -/
def Config.spReset : Byte := 0xF4

/-- R45: the number of memory cells. -/
def Config.memorySize : Nat := 256

/-- R61: what a cell holds that neither the host nor the core has written. -/
def Config.unlistedByte : Byte := 0x00

end Sys2Proof
end

