-- ==== Sys2Proof/Syntax.lean ====
section
/-! DEFINITION. The instructions of R70, one constructor for each row of the opcode table.

A register operand is kept as the whole operand byte (R67): a byte from 8 to 255 is not another
instruction but a fault of the same one (R74), raised when it is used. -/

namespace Sys2Proof

/-- The 22 instructions of R70. `a` and `b` are register operands, `imm` LDI's immediate (R16). -/
inductive Instr where
  | zero
  | hlt
  | ret
  | push (a : Byte)
  | pop (a : Byte)
  | prn (a : Byte)
  | call (a : Byte)
  | jmp (a : Byte)
  | jeq (a : Byte)
  | jne (a : Byte)
  | not (a : Byte)
  | ldi (a imm : Byte)
  | add (a b : Byte)
  | sub (a b : Byte)
  | mul (a b : Byte)
  | div (a b : Byte)
  | cmp (a b : Byte)
  | and (a b : Byte)
  | or (a b : Byte)
  | xor (a b : Byte)
  | shl (a b : Byte)
  | shr (a b : Byte)
  deriving DecidableEq, Repr

end Sys2Proof
end

