-- ==== Sys2Proof/Decode.lean ====
section
/-! DEFINITION. The opcode map (R70), the decoder (R71) and the encoder (R78).

The decoder looks the whole opcode byte up in the map. The encoder is written per instruction from
the same rows, so that the round trip compares two readings of R70. -/

namespace Sys2Proof

/-- The formats of R66, each with the instruction its operand bytes make. -/
inductive Form where
  | f0 (i : Instr)
  | fr (mk : Byte → Instr)
  | frr (mk : Byte → Byte → Instr)
  | fri (mk : Byte → Byte → Instr)

/-- R66: the length in bytes of each format. -/
def Form.length : Form → Nat
  | .f0 _ => 1
  | .fr _ => 2
  | .frr _ => 3
  | .fri _ => 3

/-- R69: the instruction read from the two pre-read bytes; those outside it are ignored. -/
def Form.read : Form → Byte → Byte → Instr
  | .f0 i, _, _ => i
  | .fr mk, b1, _ => mk b1
  | .frr mk, b1, b2 => mk b1 b2
  | .fri mk, b1, b2 => mk b1 b2

/-- A row of R70. -/
structure Row where
  byte : Byte
  mnemonic : String
  form : Form

/-- R70: the opcode map, in the order of its table. -/
def opcodeMap : List Row :=
  [ ⟨0x00, "ZERO", .f0 .zero⟩, ⟨0x01, "HLT", .f0 .hlt⟩, ⟨0x11, "RET", .f0 .ret⟩ ] ++
  [ ⟨0x45, "PUSH", .fr .push⟩, ⟨0x46, "POP", .fr .pop⟩, ⟨0x47, "PRN", .fr .prn⟩,
    ⟨0x50, "CALL", .fr .call⟩, ⟨0x54, "JMP", .fr .jmp⟩, ⟨0x55, "JEQ", .fr .jeq⟩,
    ⟨0x56, "JNE", .fr .jne⟩, ⟨0x69, "NOT", .fr .not⟩ ] ++
  [ ⟨0x82, "LDI", .fri .ldi⟩ ] ++
  [ ⟨0xA0, "ADD", .frr .add⟩, ⟨0xA1, "SUB", .frr .sub⟩, ⟨0xA2, "MUL", .frr .mul⟩,
    ⟨0xA3, "DIV", .frr .div⟩, ⟨0xA7, "CMP", .frr .cmp⟩, ⟨0xA8, "AND", .frr .and⟩,
    ⟨0xAA, "OR", .frr .or⟩, ⟨0xAB, "XOR", .frr .xor⟩, ⟨0xAC, "SHL", .frr .shl⟩,
    ⟨0xAD, "SHR", .frr .shr⟩ ]

/-- R76: with `HAS_AND` false, byte 0xA8 is removed from R70 and nothing else changes. -/
def rowOf (p : Params) (op : Byte) : Option Row :=
  if op = 0xA8 ∧ p.hasAnd = false then none else opcodeMap.find? (fun r => r.byte == op)

/-- Why the decoder rejects bytes. -/
inductive DecodeReject where
  /-- R73: the opcode byte is not in R70. Safe: the step raises DecodeError (R89). -/
  | unknownOpcode (op : Byte)
  deriving DecidableEq, Repr

/-- R71: "Each value decodes to exactly one row of rule R70, or to Unknown." -/
def decode (p : Params) (op b1 b2 : Byte) : Except DecodeReject Instr :=
  match rowOf p op with
  | some r => .ok (r.form.read b1 b2)
  | none => .error (.unknownOpcode op)

/-- R70: the opcode byte of each instruction. -/
def opcodeByte : Instr → Byte
  | .zero => 0x00
  | .hlt => 0x01
  | .ret => 0x11
  | .push _ => 0x45
  | .pop _ => 0x46
  | .prn _ => 0x47
  | .call _ => 0x50
  | .jmp _ => 0x54
  | .jeq _ => 0x55
  | .jne _ => 0x56
  | .not _ => 0x69
  | .ldi _ _ => 0x82
  | .add _ _ => 0xA0
  | .sub _ _ => 0xA1
  | .mul _ _ => 0xA2
  | .div _ _ => 0xA3
  | .cmp _ _ => 0xA7
  | .and _ _ => 0xA8
  | .or _ _ => 0xAA
  | .xor _ _ => 0xAB
  | .shl _ _ => 0xAC
  | .shr _ _ => 0xAD

/-- R65, R66: the operand bytes that belong to an instruction, in order. -/
def operandBytes : Instr → List Byte
  | .zero | .hlt | .ret => []
  | .push a | .pop a | .prn a | .call a | .jmp a | .jeq a | .jne a | .not a => [a]
  | .ldi a imm => [a, imm]
  | .add a b | .sub a b | .mul a b | .div a b | .cmp a b | .and a b | .or a b | .xor a b
  | .shl a b | .shr a b => [a, b]

/-- R78: the opcode byte, then the operands in order; only the instruction's own bytes. -/
def encode (i : Instr) : List Byte := opcodeByte i :: operandBytes i

/-- R70, R75: the length in bytes. -/
def instrLength (i : Instr) : Nat := 1 + (operandBytes i).length

/-- The mnemonic of R70. -/
def mnemonicOf : Instr → String
  | .zero => "ZERO"
  | .hlt => "HLT"
  | .ret => "RET"
  | .push _ => "PUSH"
  | .pop _ => "POP"
  | .prn _ => "PRN"
  | .call _ => "CALL"
  | .jmp _ => "JMP"
  | .jeq _ => "JEQ"
  | .jne _ => "JNE"
  | .not _ => "NOT"
  | .ldi _ _ => "LDI"
  | .add _ _ => "ADD"
  | .sub _ _ => "SUB"
  | .mul _ _ => "MUL"
  | .div _ _ => "DIV"
  | .cmp _ _ => "CMP"
  | .and _ _ => "AND"
  | .or _ _ => "OR"
  | .xor _ _ => "XOR"
  | .shl _ _ => "SHL"
  | .shr _ _ => "SHR"

/-- The decoder at the front of a list of bytes.
A byte past the end reads as 0x00, as memory past an image does (R61; log entry 10). -/
def decodeFront (p : Params) (bytes : List Byte) : Except DecodeReject Instr :=
  decode p (bytes.getD 0 Config.unlistedByte) (bytes.getD 1 Config.unlistedByte)
    (bytes.getD 2 Config.unlistedByte)

/-- The bytes of a sequence of instructions, each right after the one before it (R65, R78). -/
def assemble (is : List Instr) : List Byte := is.flatMap encode

/-- The first `n` instructions of a list of bytes, each length given by the opcode alone (R75). -/
def disassemble (p : Params) : Nat → List Byte → Except DecodeReject (List Instr)
  | 0, _ => .ok []
  | n + 1, bytes =>
    match decodeFront p bytes with
    | .error r => .error r
    | .ok i =>
      match disassemble p n (bytes.drop (instrLength i)) with
      | .error r => .error r
      | .ok is => .ok (i :: is)

/-- Byte `k` of an opcode-table word, whose bits 7:0 are the byte at the lowest address (R51). -/
def byteOfWord (w k : Nat) : Byte := BitVec.ofNat 8 (w / 256 ^ k)

/-- The instruction the decoder of the default build reads from an opcode-table word. -/
def decodeTableWord (nbits w : Nat) : Option Instr :=
  let v := w % 2 ^ nbits
  match decode Config.defaults (byteOfWord v 0) (byteOfWord v 1) (byteOfWord v 2) with
  | .ok i => some i
  | .error _ => none

end Sys2Proof
end

