-- ==== Sys2Proof/Machine/State.lean ====
section
/-! DEFINITION. The state of the core and its memory (R38), as plain data, and its reset value (R165).

`params` is the model's own field: the build parameters that R11 says a model takes as arguments
(log entry 1). -/

namespace Sys2Proof.Machine

/-- The names of the eight general registers (R20). -/
inductive Reg where
  | r0 | r1 | r2 | r3 | r4 | r5 | r6 | r7
  deriving DecidableEq, Repr

/-- The register file: eight bytes (R20). R7 is the stack pointer (R22). -/
structure Regs where
  r0 : Byte
  r1 : Byte
  r2 : Byte
  r3 : Byte
  r4 : Byte
  r5 : Byte
  r6 : Byte
  r7 : Byte
  deriving DecidableEq, Repr

/-- Memory: (address, byte) pairs, addresses rising and below 256, no entry equal to what an
unlisted cell reads as; `Memory.wf` is that form (R45, R61; log entry 4). -/
abbrev Memory := List Host.Cell

/-- The causes of R140. `none` is code 0; codes 5..7 "are never used" (log entry 6). -/
inductive FaultCode where
  | none
  | decodeError
  | divideByZero
  | invalidRegister
  | zeroSpin
  deriving DecidableEq, Repr

/-- The fault latch of R32. -/
structure FaultLatch where
  code : FaultCode
  pc : Byte
  opcode : Byte
  operand : Byte
  deriving DecidableEq, Repr

/-- R32: the latch after reset. -/
def FaultLatch.clear : FaultLatch := { code := .none, pc := 0, opcode := 0, operand := 0 }

/-- R38: the whole state. -/
structure State where
  /-- The build parameters (R11); no step changes them. -/
  params : Params
  /-- The 256 bytes of memory (R45). -/
  mem : Memory
  /-- R0..R7 (R20). -/
  x : Regs
  /-- The program counter (R25). -/
  pc : Byte
  /-- The flags register FL (R28). -/
  fl : Byte
  /-- The running flag (R31). -/
  running : Bool
  /-- The fault latch (R32). -/
  fault : FaultLatch
  /-- The bytes emitted since reset, oldest first (R36). -/
  out : List Byte
  deriving DecidableEq, Repr

/-- R165, with the memory as it is at creation (R61) and the default build (R11). -/
def State.reset : State where
  params := Config.defaults
  mem := []
  x := { r0 := 0, r1 := 0, r2 := 0, r3 := 0, r4 := 0, r5 := 0, r6 := 0, r7 := Config.spReset }
  pc := 0
  fl := 0
  running := true
  fault := FaultLatch.clear
  out := []

/-- Reasons to stop with no next state. There are none: a fault of the core is a state the spec
describes (R147), so it is a next state with the latch written, and the step is total. -/
inductive Fault where
  deriving DecidableEq, Repr

/-- Reasons to answer that an instruction has no meaning. -/
inductive Refusal where
  /-- Raised only by an arm of `exec` whose instruction has no meaning yet; safe. No arm raises it:
  every row of the opcode table has its meaning. -/
  | notModelled (mnemonic : String)
  deriving DecidableEq, Repr

/-- What a meaning or a step answers. -/
abbrev Result := Host.Outcome State Fault Refusal

end Sys2Proof.Machine
end

