-- ==== Sys2Proof/Machine/Ops.lean ====
section
/-! DEFINITION. The primitives of R14 over registers, memory, the PC, FL and the output channel; the
status (R33); the fetch and pre-read of a step (R85); taking a fault (R147). -/

namespace Sys2Proof.Machine

/-- R13: `u8(v) = v mod 256` on any integer. -/
def u8 (v : Int) : Byte := BitVec.ofInt 8 v

/-! Registers -/

/-- `x[i]` (R14). -/
def Regs.get (x : Regs) : Reg → Byte
  | .r0 => x.r0
  | .r1 => x.r1
  | .r2 => x.r2
  | .r3 => x.r3
  | .r4 => x.r4
  | .r5 => x.r5
  | .r6 => x.r6
  | .r7 => x.r7

/-- `x[i] <- v` (R14). -/
def Regs.set (x : Regs) (r : Reg) (v : Byte) : Regs :=
  match r with
  | .r0 => { x with r0 := v }
  | .r1 => { x with r1 := v }
  | .r2 => { x with r2 := v }
  | .r3 => { x with r3 := v }
  | .r4 => { x with r4 := v }
  | .r5 => { x with r5 := v }
  | .r6 => { x with r6 := v }
  | .r7 => { x with r7 := v }

/-! Memory -/

/-- The byte of the cell at a plain address. -/
def lookupCell : Memory → Nat → Byte
  | [], _ => Config.unlistedByte
  | (k, v) :: m, a => if k = a then v else lookupCell m a

/-- Set the cell at a plain address, keeping the canonical form. -/
def storeCell : Memory → Nat → Byte → Memory
  | [], a, v => if v = Config.unlistedByte then [] else [(a, v)]
  | (k, w) :: m, a, v =>
    if a < k then (if v = Config.unlistedByte then (k, w) :: m else (a, v) :: (k, w) :: m)
    else if a = k then (if v = Config.unlistedByte then m else (a, v) :: m)
    else (k, w) :: storeCell m a v

/-- The canonical form: addresses in the space and strictly rising, no entry that an unlisted cell
would read as. -/
def Memory.wf : Memory → Bool
  | [] => true
  | (k, v) :: m =>
    decide (k < Config.memorySize) && decide (v ≠ Config.unlistedByte) &&
      m.all (fun c => decide (k < c.1)) && Memory.wf m

/-- `MemRead(addr, 1)`: total, with no effect (R47). -/
def memRead (m : Memory) (a : Byte) : Byte := lookupCell m a.toNat

/-- `MemWrite(addr, 1, v)`: sets that cell and changes nothing else (R48). -/
def memWrite (m : Memory) (a v : Byte) : Memory := storeCell m a.toNat v

/-! Accessors of the state -/

/-- `x[r]` of a state. -/
def State.reg (s : State) (r : Reg) : Byte := s.x.get r

/-- `x[r] <- v`. -/
def State.setReg (s : State) (r : Reg) (v : Byte) : State := { s with x := s.x.set r v }

/-- `pc <- target`. -/
def State.setPc (s : State) (target : Byte) : State := { s with pc := target }

/-- `FL <- v`. -/
def State.setFl (s : State) (v : Byte) : State := { s with fl := v }

/-- `MemRead` on a state. -/
def State.load (s : State) (a : Byte) : Byte := memRead s.mem a

/-- `MemWrite` on a state. -/
def State.store (s : State) (a v : Byte) : State := { s with mem := memWrite s.mem a v }

/-- `Emit(v)`: append to the output channel (R36). -/
def State.emit (s : State) (v : Byte) : State := { s with out := s.out ++ [v] }

/-- `running <- false`. -/
def State.halt (s : State) : State := { s with running := false }

/-- `u8(pc+n)` (R26). -/
def State.pcPlus (s : State) (n : Nat) : Byte := u8 (s.pc.toNat + n)

/-- The stack pointer (R22). -/
def State.sp (s : State) : Byte := s.reg .r7

/-- SP after a decrement, mod 256 (R22). -/
def State.spLess (s : State) : Byte := u8 ((s.sp.toNat : Int) - 1)

/-- SP after an increment, mod 256 (R22). -/
def State.spMore (s : State) : Byte := u8 ((s.sp.toNat : Int) + 1)

/-- R125: decrement SP, then write at the new SP. The value may read the decremented SP. -/
def State.pushByte (s : State) (v : State → Byte) : State :=
  let s1 := s.setReg .r7 s.spLess
  s1.store s1.sp (v s1)

/-! Status (R33) -/

inductive Status where
  | run
  | halted
  | faulted
  deriving DecidableEq, Repr

/-- R33: the status, derived from `running` and `fault_code`. -/
def State.status (s : State) : Status :=
  if s.fault.code ≠ .none then .faulted else if s.running then .run else .halted

/-- R32: the 3-bit value of `fault_code`, numbered by R140. -/
def FaultCode.bits : FaultCode → BitVec 3
  | .none => 0
  | .decodeError => 1
  | .divideByZero => 2
  | .invalidRegister => 3
  | .zeroSpin => 4

/-! Fetch (R85) -/

/-- `op`: the byte at `pc` (R16). -/
def State.fetchOp (s : State) : Byte := s.load s.pc

/-- `b1`: the byte at `u8(pc+1)` (R16). -/
def State.fetchB1 (s : State) : Byte := s.load (s.pcPlus 1)

/-- `b2`: the byte at `u8(pc+2)` (R16). -/
def State.fetchB2 (s : State) : Byte := s.load (s.pcPlus 2)

/-- Fetch, pre-read and decode: the first part of a step (R85). The PC does not move (R69). -/
def State.fetched (s : State) : Except DecodeReject Instr :=
  decode s.params s.fetchOp s.fetchB1 s.fetchB2

/-! Taking a fault (R147) -/

/-- R147: "the step writes only the fault latch". -/
def State.takeFault (s : State) (code : FaultCode) (opcode operand : Byte) : State :=
  { s with fault := { code := code, pc := s.pc, opcode := opcode, operand := operand } }

/-- `raise <Fault>(info)` (R14): the whole step is the fault's entry, a next state. -/
def raiseFault (code : FaultCode) (opcode operand : Byte) (s : State) : Result :=
  .next (s.takeFault code opcode operand)

/-- R89: an opcode byte outside R70 raises DecodeError. -/
def raiseDecode (r : DecodeReject) (s : State) : Result :=
  match r with
  | .unknownOpcode op => raiseFault .decodeError op 0 s

/-- R91: in HALTED or FAULTED no step is taken and the state does not change. -/
def idle (s : State) : Result := .next s

/-! Reset -/

/-- R165, R166: `rst` at any time; memory keeps its contents and the build its parameters. -/
def State.assertReset (s : State) : State := { State.reset with mem := s.mem, params := s.params }

end Sys2Proof.Machine
end

