-- ==== Sys2Proof/Machine/Flags.lean ====
section
/-! DEFINITION. The flags register FL (R28): its three bits, and what CMP writes (R100). -/

namespace Sys2Proof.Machine

/-- FL with only bit 0, E, set. -/
def flagE : Byte := 0x01

/-- FL with only bit 1, G, set. -/
def flagG : Byte := 0x02

/-- FL with only bit 2, L, set. -/
def flagL : Byte := 0x04

/-- R100: all of FL after comparing two unsigned values. -/
def compareFlags (va vb : Byte) : Byte :=
  if va.toNat = vb.toNat then flagE else if va.toNat > vb.toNat then flagG else flagL

/-- `FL[0]`, the only bit an instruction reads (R29). -/
def State.eFlag (s : State) : Bool := s.fl.getLsbD 0

end Sys2Proof.Machine
end

