-- ==== Sys2Proof/Machine/Operands.lean ====
section
/-! DEFINITION. Register operands (R67). The immediate (R68) needs no function: it is the byte. -/

namespace Sys2Proof.Machine

/-- R67: a byte from 0 to 7 names R0 to R7, a byte from 8 to 255 names no register. -/
def regOf (v : Byte) : Option Reg :=
  match v.toNat with
  | 0 => some .r0
  | 1 => some .r1
  | 2 => some .r2
  | 3 => some .r3
  | 4 => some .r4
  | 5 => some .r5
  | 6 => some .r6
  | 7 => some .r7
  | _ => none

/-- The operand byte that names a register (R67, R78). -/
def Reg.byte : Reg → Byte
  | .r0 => 0
  | .r1 => 1
  | .r2 => 2
  | .r3 => 3
  | .r4 => 4
  | .r5 => 5
  | .r6 => 6
  | .r7 => 7

/-- `reg(v)` of R67: go on with the register, or raise InvalidRegister with the bad byte. -/
def withReg (i : Instr) (v : Byte) (s : State) (go : Reg → Result) : Result :=
  match regOf v with
  | some r => go r
  | none => raiseFault .invalidRegister (opcodeByte i) v s

end Sys2Proof.Machine
end

