-- ==== Sys2Proof/Machine/Alu.lean ====
section
/-! DEFINITION. The ALU instructions (R95 to R106). Each operation is the exact integer result taken
mod 256 (R107). -/

namespace Sys2Proof.Machine

/-- R96. -/
def aluAdd (va vb : Byte) : Byte := u8 ((va.toNat : Int) + vb.toNat)

/-- R97. -/
def aluSub (va vb : Byte) : Byte := u8 ((va.toNat : Int) - vb.toNat)

/-- R98: the low 8 bits of the product. -/
def aluMul (va vb : Byte) : Byte := u8 ((va.toNat : Int) * vb.toNat)

/-- R99: the unsigned quotient rounded toward zero; DIV calls it only with `vb` not 0. -/
def aluDiv (va vb : Byte) : Byte := u8 ((va.toNat / vb.toNat : Nat) : Int)

/-- R101. -/
def aluAnd (va vb : Byte) : Byte := va &&& vb

/-- R102. -/
def aluOr (va vb : Byte) : Byte := va ||| vb

/-- R103. -/
def aluXor (va vb : Byte) : Byte := va ^^^ vb

/-- R104: the amount is the whole 8-bit value. -/
def aluShl (va vb : Byte) : Byte := u8 ((va.toNat <<< vb.toNat : Nat) : Int)

/-- R105: a logical shift right, or the source's left shift. -/
def aluShr (mode : ShrMode) (va vb : Byte) : Byte :=
  match mode with
  | .right => u8 ((va.toNat >>> vb.toNat : Nat) : Int)
  | .asSourceLeft => aluShl va vb

/-- R106. -/
def aluNot (va : Byte) : Byte := va ^^^ 0xFF

/-- R95: the two register checks, operand 1 first, then the instruction's own part. -/
def withTwoRegs (i : Instr) (a b : Byte) (s : State) (go : Reg → Reg → Result) : Result :=
  withReg i a s fun ra => withReg i b s fun rb => go ra rb

/-- R95: the frame of a two-register instruction that writes `f(va, vb)` to operand 1's register. -/
def aluFrame (i : Instr) (a b : Byte) (f : Byte → Byte → Byte) (s : State) : Result :=
  withTwoRegs i a b s fun ra rb =>
    .next ((s.setReg ra (f (s.reg ra) (s.reg rb))).setPc (s.pcPlus 3))

/-- ADD (R96). -/
def execAdd (a b : Byte) (s : State) : Result := aluFrame (.add a b) a b aluAdd s

/-- SUB (R97). -/
def execSub (a b : Byte) (s : State) : Result := aluFrame (.sub a b) a b aluSub s

/-- MUL (R98). -/
def execMul (a b : Byte) (s : State) : Result := aluFrame (.mul a b) a b aluMul s

/-- DIV (R99): the zero check comes after both register checks (R145). -/
def execDiv (a b : Byte) (s : State) : Result :=
  withTwoRegs (.div a b) a b s fun ra rb =>
    if s.reg rb = 0 then raiseFault .divideByZero (opcodeByte (.div a b)) 0 s
    else .next ((s.setReg ra (aluDiv (s.reg ra) (s.reg rb))).setPc (s.pcPlus 3))

/-- CMP (R100): writes all of FL and no register. -/
def execCmp (a b : Byte) (s : State) : Result :=
  withTwoRegs (.cmp a b) a b s fun ra rb =>
    .next ((s.setFl (compareFlags (s.reg ra) (s.reg rb))).setPc (s.pcPlus 3))

/-- AND (R101). `HAS_AND` acts in the decoder, which alone R76 changes (log entry 5). -/
def execAnd (a b : Byte) (s : State) : Result := aluFrame (.and a b) a b aluAnd s

/-- OR (R102). -/
def execOr (a b : Byte) (s : State) : Result := aluFrame (.or a b) a b aluOr s

/-- XOR (R103). -/
def execXor (a b : Byte) (s : State) : Result := aluFrame (.xor a b) a b aluXor s

/-- SHL (R104). -/
def execShl (a b : Byte) (s : State) : Result := aluFrame (.shl a b) a b aluShl s

/-- SHR (R105), by the build's `SHR_MODE`. -/
def execShr (a b : Byte) (s : State) : Result :=
  aluFrame (.shr a b) a b (aluShr s.params.shrMode) s

/-- NOT (R106). -/
def execNot (a : Byte) (s : State) : Result :=
  withReg (.not a) a s fun ra => .next ((s.setReg ra (aluNot (s.reg ra))).setPc (s.pcPlus 2))

end Sys2Proof.Machine
end

