-- ==== Sys2Proof/Machine/Control.lean ====
section
/-! DEFINITION. CALL, RET, JMP, JEQ and JNE (R130 to R135). -/

namespace Sys2Proof.Machine

/-- CALL (R131): push `u8(pc+2)`, then jump to `x[a]`, read after the push. -/
def execCall (a : Byte) (s : State) : Result :=
  withReg (.call a) a s fun ra =>
    let s1 := s.pushByte fun _ => s.pcPlus 2
    .next (s1.setPc (s1.reg ra))

/-- RET (R132): pop the PC; no other register is written. -/
def execRet (s : State) : Result :=
  .next ((s.setPc (s.load s.sp)).setReg .r7 s.spMore)

/-- A taken jump: only now is the operand checked (R134, R135). -/
def jumpTo (i : Instr) (a : Byte) (s : State) : Result :=
  withReg i a s fun ra => .next (s.setPc (s.reg ra))

/-- JMP (R133). -/
def execJmp (a : Byte) (s : State) : Result := jumpTo (.jmp a) a s

/-- JEQ (R134). -/
def execJeq (a : Byte) (s : State) : Result :=
  if s.eFlag = true then jumpTo (.jeq a) a s else .next (s.setPc (s.pcPlus 2))

/-- JNE (R135). -/
def execJne (a : Byte) (s : State) : Result :=
  if s.eFlag = false then jumpTo (.jne a) a s else .next (s.setPc (s.pcPlus 2))

end Sys2Proof.Machine
end

