-- ==== Sys2Proof/Machine/LoadOutput.lean ====
section
/-! DEFINITION. LDI and PRN (R120, R121). -/

namespace Sys2Proof.Machine

/-- LDI (R120): the immediate is never checked. -/
def execLdi (a imm : Byte) (s : State) : Result :=
  withReg (.ldi a imm) a s fun ra => .next ((s.setReg ra imm).setPc (s.pcPlus 3))

/-- PRN (R121). -/
def execPrn (a : Byte) (s : State) : Result :=
  withReg (.prn a) a s fun ra => .next ((s.emit (s.reg ra)).setPc (s.pcPlus 2))

end Sys2Proof.Machine
end

