-- ==== Sys2Proof/Machine/Loop.lean ====
section
/-! DEFINITION. ZERO and HLT (R87, R88). -/

namespace Sys2Proof.Machine

/-- ZERO (R87): no state changes and the PC does not advance, or ZeroSpin in the hardened build. -/
def execZero (s : State) : Result :=
  match s.params.zeroOpcode with
  | .spin => .next s
  | .fault => raiseFault .zeroSpin (opcodeByte .zero) 0 s

/-- HLT (R88). -/
def execHlt (s : State) : Result := .next (s.halt.setPc (s.pcPlus 1))

end Sys2Proof.Machine
end

