-- ==== Sys2Proof/Machine/Stack.lean ====
section
/-! DEFINITION. PUSH and POP (R125 to R127), in the order the spec lists their steps. -/

namespace Sys2Proof.Machine

/-- PUSH (R126): `x[a]` is read after the decrement, so `PUSH R7` stores the decremented SP. -/
def execPush (a : Byte) (s : State) : Result :=
  withReg (.push a) a s fun ra => .next ((s.pushByte fun s1 => s1.reg ra).setPc (s.pcPlus 2))

/-- POP (R127): SP is incremented after the write, so `POP R7` ends as the byte read plus 1. -/
def execPop (a : Byte) (s : State) : Result :=
  withReg (.pop a) a s fun ra =>
    let s1 := s.setReg ra (s.load s.sp)
    .next ((s1.setReg .r7 s1.spMore).setPc (s.pcPlus 2))

end Sys2Proof.Machine
end

