-- ==== Sys2Proof/Machine/Step.lean ====
section
/-! DEFINITION. One step (R85), and the placing of one instruction where the step fetches. -/

namespace Sys2Proof.Machine

/-- R85: a step is enabled only in RUN; it decodes the fetched bytes and runs that instruction, or
raises DecodeError (R89). In HALTED and FAULTED the state does not change (R91). -/
def step (s : State) : Host.Outcome State Fault Refusal :=
  match s.status with
  | .run =>
    match s.fetched with
    | .ok i => exec i s
    | .error r => raiseDecode r s
  | .halted => idle s
  | .faulted => idle s

/-- `s` with an instruction's three bytes at `pc`, `u8(pc+1)` and `u8(pc+2)`; nothing else changes.
It stands for the host's load (R62, R168; log entry 7). -/
def State.withFetchWord (s : State) (nbits w : Nat) : State :=
  let v := w % 2 ^ nbits
  ((s.store s.pc (byteOfWord v 0)).store (s.pcPlus 1) (byteOfWord v 1)).store (s.pcPlus 2)
    (byteOfWord v 2)

end Sys2Proof.Machine
end

