-- ==== Sys2Proof/Machine/Loader.lean ====
section
/-! DEFINITION. The program image: its text (R62) and its placing in memory (R61 to R63).

The reader of the text is the host's part (R5); it is given here because R62 and R63 fix what it
yields. Opening the file is left out (R5). -/

namespace Sys2Proof.Machine

/-- R62: bytes go into the cells from `k` up, one each. -/
def placeBytes : Nat → List Byte → Memory → Memory
  | _, [], m => m
  | k, v :: bytes, m => placeBytes (k + 1) bytes (storeCell m k v)

/-- The memory a load leaves: byte `k` of the image in cell `k` (R62), and "0x00 for a cell the image
did not cover" (R56), whatever an earlier run left there. An image of more than 256 bytes is refused
(R63). -/
def loadImage (bytes : List Byte) : Option Memory :=
  if Config.memorySize < bytes.length then none else some (placeBytes 0 bytes [])

/-- What one line of the image text stands for. -/
inductive ImageLine where
  /-- A blank line, which consumes no address (R62). -/
  | blank
  /-- One instruction byte. -/
  | byte (v : Byte)
  /-- Neither: the image is refused (R63). -/
  | bad
  deriving DecidableEq, Repr

/-- White space taken off both ends (R62; log entry 8). -/
def trimmed (cs : List Char) : List Char :=
  ((cs.dropWhile Char.isWhitespace).reverse.dropWhile Char.isWhitespace).reverse

/-- The value of a run of binary digits, the leftmost the most significant (R62). -/
def binaryValue : Nat → List Char → Option Nat
  | acc, [] => some acc
  | acc, '0' :: cs => binaryValue (2 * acc) cs
  | acc, '1' :: cs => binaryValue (2 * acc + 1) cs
  | _, _ :: _ => none

/-- R62: "a string of 8 binary digits", before a `#` comment and with white space trimmed. -/
def readImageLine (line : List Char) : ImageLine :=
  let text := trimmed (line.takeWhile (· ≠ '#'))
  if text = [] then .blank
  else if text.length = 8 then
    match binaryValue 0 text with
    | some v => .byte (BitVec.ofNat 8 v)
    | none => .bad
  else .bad

/-- The bytes of an image, or none where a line is refused (R63). -/
def readImage : List (List Char) → Option (List Byte)
  | [] => some []
  | line :: rest =>
    match readImageLine line with
    | .blank => readImage rest
    | .byte v => (readImage rest).map (v :: ·)
    | .bad => none

end Sys2Proof.Machine
end

