-- ==== Sys2Proof/Machine/Assembly.lean ====
section
/-! DEFINITION. The assembly notation of R77. It is notation for programs and no part of the core
(log entry 9). -/

namespace Sys2Proof.Machine

/-- The value of a non-empty run of digits in a base. -/
def digitsValue (base : Nat) (cs : List Char) : Option Nat :=
  if cs = [] then none
  else cs.foldl (fun acc c =>
    match acc, "0123456789abcdef".toList.findIdx? (· == c.toLower) with
    | some n, some d => if d < base then some (n * base + d) else none
    | _, _ => none) (some 0)

/-- R77: `imm` in decimal, or hex `0x..`, or binary `0b........`, at most 255. That any number of
digits will do, leading zeros included, is the model's choice (log entry 9). -/
def readImm (cs : List Char) : Option Byte :=
  let v := match cs with
    | '0' :: 'x' :: ds => digitsValue 16 ds
    | '0' :: 'b' :: ds => digitsValue 2 ds
    | ds => digitsValue 10 ds
  match v with
  | some n => if n ≤ 255 then some (BitVec.ofNat 8 n) else none
  | none => none

/-- R77: registers are `R0`..`R7`. -/
def readReg : List Char → Option Byte
  | ['R', d] =>
    match digitsValue 8 [d] with
    | some n => some (BitVec.ofNat 8 n)
    | none => none
  | _ => none

/-- The operands of a line, separated by commas, each with white space trimmed. -/
def splitOperands (cs : List Char) : List (List Char) :=
  if trimmed cs = [] then [] else (cs.splitOn ',').map trimmed

/-- One operand list read by the format of a row of R70. -/
def readOperands : Form → List (List Char) → Option Instr
  | .f0 i, [] => some i
  | .fr mk, [a] => (readReg a).map mk
  | .frr mk, [a, b] => do return mk (← readReg a) (← readReg b)
  | .fri mk, [a, v] => do return mk (← readReg a) (← readImm v)
  | _, _ => none

/-- R77: `MNEMONIC`, `MNEMONIC Ra`, `MNEMONIC Ra, Rb` or `LDI Ra, imm`, before a `#` comment. -/
def readAsm (line : List Char) : Option Instr :=
  let text := trimmed (line.takeWhile (· ≠ '#'))
  let name := text.takeWhile (fun c => !c.isWhitespace)
  match opcodeMap.find? (fun r => r.mnemonic.toList == name) with
  | some r => readOperands r.form (splitOperands (text.drop name.length))
  | none => none

/-- The pieces of a line before its comment, which ` ; ` separates (R77); blank ones are dropped. -/
def asmPieces (line : List Char) : List (List Char) :=
  (((line.takeWhile (· ≠ '#')).splitOn ';').map trimmed).filter (· ≠ [])

/-- R77, R78: the instructions of a program's lines, in order; none where one cannot be read. -/
def readAsmLines (lines : List (List Char)) : Option (List Instr) :=
  (lines.flatMap asmPieces).mapM readAsm

end Sys2Proof.Machine
end

