-- ==== Sys2Proof/Machine/Block.lean ====
section
/-! DEFINITION. The block as the host sees it: its inputs and outputs (R37), its states (R92), the
boot order (R168), and the host's view of a run (R90, R122, R156, R158). -/

namespace Sys2Proof.Machine

/-- What the host does to the block (R37). Memory is written only while `rst` is asserted, so a
write is part of that move (log entry 2). -/
inductive HostMove where
  /-- `rst` asserted, with the host's memory writes, in order. -/
  | assertReset (writes : List (Byte × Byte))
  /-- `step` granted with `rst` released. -/
  | grantStep
  /-- Neither. -/
  | wait
  deriving DecidableEq, Repr

/-- The host's writes, in order. -/
def hostWrites : List (Byte × Byte) → Memory → Memory
  | [], m => m
  | (a, v) :: ws, m => hostWrites ws (memWrite m a v)

/-- R37: one move. Under `rst` the state takes its reset values and the core takes no step. -/
def blockMove (mv : HostMove) (s : State) : Result :=
  match mv with
  | .assertReset ws => .next { s.assertReset with mem := hostWrites ws s.mem }
  | .grantStep => step s
  | .wait => .next s

/-- The states of R92. -/
inductive BlockState where
  | reset
  | run
  | halted
  | faulted
  deriving DecidableEq, Repr

/-- R92: the state the block is in during a move, from the status before it. -/
def blockState (mv : HostMove) (s : State) : BlockState :=
  match mv with
  | .assertReset _ => .reset
  | _ =>
    match s.status with
    | .run => .run
    | .halted => .halted
    | .faulted => .faulted

/-- R37: `out_valid` and `out_data` of a granted step, as one optional byte (log entry 3). -/
def emitted (s : State) : Option Byte :=
  match step s with
  | .next t => t.out[s.out.length]?
  | _ => none

/-- The outputs of R37. -/
structure Signals where
  outData : Option Byte
  halted : Bool
  faulted : Bool
  faultCode : BitVec 3
  faultPc : Byte
  faultOpcode : Byte
  faultOperand : Byte
  deriving DecidableEq, Repr

/-- The state whose latch and status the outputs show during a move: while `rst` is asserted the
state has its reset values (R165). -/
def shown (mv : HostMove) (s : State) : State :=
  match mv with
  | .assertReset _ => s.assertReset
  | _ => s

/-- R37: the outputs during a move made in the state `s`: `outData` is asserted "for the step of a
PRN", the rest shows the state at the start of the move. -/
def signals (mv : HostMove) (s : State) : Signals where
  outData := match mv with
    | .grantStep => emitted s
    | _ => none
  halted := decide ((shown mv s).status = .halted)
  faulted := decide ((shown mv s).status = .faulted)
  faultCode := (shown mv s).fault.code.bits
  faultPc := (shown mv s).fault.pc
  faultOpcode := (shown mv s).fault.opcode
  faultOperand := (shown mv s).fault.operand

/-- R168: assert `rst`, write the image from address 0, release `rst`. A cell the image does not cover
is then 0x00 (R56). None where the image is refused (R63). -/
def boot (image : List Byte) (s : State) : Option State :=
  match loadImage image with
  | some m => some { s.assertReset with mem := m }
  | none => none

/-- R90: an executor that takes the granted steps up to the ceiling `MAX_STEPS`. Stopping at the
ceiling "ends no run, sets no fault and changes no state". -/
def runGranted (maxSteps : Option Nat) (granted : Nat) (s : State) : Result :=
  match maxSteps with
  | none => Host.Core.run Sys2Proof.core granted s
  | some m => Host.Core.run Sys2Proof.core (min m granted) s

/-- R122: the decimal text of each byte of `out`, in order, one per line. -/
def outputLines (s : State) : List String := s.out.map fun v => Nat.repr v.toNat

/-- R158: 0 on HALTED, 1 on FAULTED; none while the run has not ended (log entry 11). -/
def exitStatus (s : State) : Option Nat :=
  match s.status with
  | .run => none
  | .halted => some 0
  | .faulted => some 1

/-- R158: what the diagnostic names on FAULTED: the opcode and the address. -/
def diagnostic (s : State) : Option (Byte × Byte) :=
  match s.status with
  | .faulted => some (s.fault.opcode, s.fault.pc)
  | _ => none

/-- R156: what a trace line prints before a step: `pc`, three bytes of memory, R0..R7. Its text
layout is not in the source (log entry 11). -/
structure TraceLine where
  pc : Byte
  bytes : List Byte
  regs : List Byte
  deriving DecidableEq, Repr

/-- R156: the trace line of the step from `s`. -/
def traceLine (s : State) : TraceLine where
  pc := s.pc
  bytes := [s.fetchOp, s.fetchB1, s.fetchB2]
  regs := [s.x.r0, s.x.r1, s.x.r2, s.x.r3, s.x.r4, s.x.r5, s.x.r6, s.x.r7]

end Sys2Proof.Machine
end

