-- ==== Sys2Proof/WellFormed.lean ====
section
/-! DEFINITION. Well-formed instructions: every register operand is 0..7 (R67, R143), and the build
has the instruction (R76). The decoder and `exec` do not assume it: an instruction that is not
well formed takes the fault the spec names. -/

namespace Sys2Proof

/-- R66: the bytes of an instruction that are register operands, in order. -/
def registerOperands : Instr → List Byte
  | .zero | .hlt | .ret => []
  | .push a | .pop a | .prn a | .call a | .jmp a | .jeq a | .jne a | .not a => [a]
  | .ldi a _ => [a]
  | .add a b | .sub a b | .mul a b | .div a b | .cmp a b | .and a b | .or a b | .xor a b
  | .shl a b | .shr a b => [a, b]

/-- R67: "A byte from 0 to 7 names R0 to R7." -/
def namesRegister (v : Byte) : Bool := decide (v.toNat ≤ 7)

/-- R76: a build without AND lacks that one instruction. -/
def inBuild (p : Params) : Instr → Bool
  | .and _ _ => p.hasAnd
  | _ => true

/-- R143: the instructions of a well-formed program on the build `p`. -/
def wellFormed (p : Params) (i : Instr) : Bool :=
  inBuild p i && (registerOperands i).all namesRegister

end Sys2Proof
end

