-- ==== Sys2Proof/Safety.lean ====
section
/-! DEFINITION. The words the statements use: runs, the invariant, the fault the spec's priority picks
from the bytes alone, and what each form may write. None of them is called by the machine. -/

namespace Sys2Proof.Machine

/-- `k` steps granted from `s` (R37, R90). -/
def runSteps (k : Nat) (s : State) : Result := Host.Core.run Sys2Proof.core k s

/-- A run of `k` steps that ends well: HALTED, exit status 0 (R90, R158). -/
def endsHalted (k : Nat) (s : State) : Prop :=
  ∃ t, runSteps k s = .next t ∧ t.status = .halted

/-- R30: the values FL can hold. -/
def legalFlags : List Byte := [0x00, 0x01, 0x02, 0x04]

/-- The register numbered `n`, read from the file in order (R20). -/
def numbered (x : Regs) (n : Nat) : Byte :=
  [x.r0, x.r1, x.r2, x.r3, x.r4, x.r5, x.r6, x.r7].getD n 0

/-! Opcode bytes, written out from R66 and R70 as plain lists, apart from the decoder -/

/-- R70, R76: the bytes that are opcodes of a build. -/
def isOpcode (p : Params) (op : Byte) : Bool :=
  decide (op ∈ ([0x00, 0x01, 0x11, 0x45, 0x46, 0x47, 0x50, 0x54, 0x55, 0x56, 0x69, 0x82,
    0xA0, 0xA1, 0xA2, 0xA3, 0xA7, 0xAA, 0xAB, 0xAC, 0xAD] : List Byte)) ||
  (decide (op = 0xA8) && p.hasAnd)

/-- R66, R134, R135: the instruction at hand uses operand 1 as a register. -/
def usesFirst (s : State) (op : Byte) : Bool :=
  decide (op ∈ ([0x45, 0x46, 0x47, 0x50, 0x54, 0x69, 0x82,
    0xA0, 0xA1, 0xA2, 0xA3, 0xA7, 0xA8, 0xAA, 0xAB, 0xAC, 0xAD] : List Byte)) ||
  (decide (op = 0x55) && s.fl.getLsbD 0) || (decide (op = 0x56) && !s.fl.getLsbD 0)

/-- R66: the instruction uses operand 2 as a register. -/
def usesSecond (op : Byte) : Bool :=
  decide (op ∈ ([0xA0, 0xA1, 0xA2, 0xA3, 0xA7, 0xA8, 0xAA, 0xAB, 0xAC, 0xAD] : List Byte))

/-- R145: the fault of the step from a state in RUN, with its operand information, chosen by the
spec's priority from the three fetched bytes; none where the step raises no fault. -/
def expectedFault (s : State) : Option (FaultCode × Byte) :=
  let op := memRead s.mem s.pc
  let b1 := memRead s.mem (s.pc + 1)
  let b2 := memRead s.mem (s.pc + 2)
  if isOpcode s.params op = false then some (.decodeError, 0)
  else if op = 0x00 ∧ s.params.zeroOpcode = .fault then some (.zeroSpin, 0)
  else if usesFirst s op = true ∧ 7 < b1.toNat then some (.invalidRegister, b1)
  else if usesSecond op = true ∧ 7 < b2.toNat then some (.invalidRegister, b2)
  else if op = 0xA3 ∧ numbered s.x b2.toNat = 0 then some (.divideByZero, 0)
  else none

/-! The invariant -/

/-- What every state of a run has: memory in the model's canonical form (log entry 4), a legal FL
(R30), and a latch that is clear or tells the truth about the state it left (R32, R33, R140, R147). -/
abbrev State.Inv (s : State) : Prop :=
  Memory.wf s.mem = true ∧ s.fl ∈ legalFlags ∧
  (s.fault.code = .none → s.fault = FaultLatch.clear) ∧
  (s.fault.code ≠ .none →
    s.running = true ∧ s.fault.pc = s.pc ∧ s.fault.opcode = memRead s.mem s.pc) ∧
  (s.fault.code = .decodeError → isOpcode s.params s.fault.opcode = false ∧ s.fault.operand = 0) ∧
  (s.fault.code = .divideByZero → s.fault.opcode = 0xA3 ∧ s.fault.operand = 0) ∧
  (s.fault.code = .invalidRegister → 7 < s.fault.operand.toNat) ∧
  (s.fault.code = .zeroSpin →
    s.params.zeroOpcode = .fault ∧ s.fault.opcode = 0x00 ∧ s.fault.operand = 0)

/-! What each form may write, for the frames -/

/-- The forms whose one effect, beside the PC, is a register: the ALU without CMP, NOT and LDI. -/
def isRegisterForm : Instr → Bool
  | .not _ | .ldi _ _ | .add _ _ | .sub _ _ | .mul _ _ | .div _ _ | .and _ _ | .or _ _ | .xor _ _
  | .shl _ _ | .shr _ _ => true
  | .zero | .hlt | .ret | .push _ | .pop _ | .prn _ | .call _ | .jmp _ | .jeq _ | .jne _
  | .cmp _ _ => false

/-- The forms that write no register and no memory (R26, R87, R88, R100, R121, R133 to R135). -/
def writesNeither : Instr → Bool
  | .zero | .hlt | .prn _ | .jmp _ | .jeq _ | .jne _ | .cmp _ _ => true
  | .ret | .push _ | .pop _ | .call _ | .not _ | .ldi _ _ | .add _ _ | .sub _ _ | .mul _ _
  | .div _ _ | .and _ _ | .or _ _ | .xor _ _ | .shl _ _ | .shr _ _ => false

/-- The operand byte that names the destination register of a form that has one. -/
def destinationByte : Instr → Option Byte
  | .not a | .ldi a _ | .pop a | .add a _ | .sub a _ | .mul a _ | .div a _ | .and a _ | .or a _
  | .xor a _ | .shl a _ | .shr a _ => some a
  | .zero | .hlt | .ret | .push _ | .prn _ | .call _ | .jmp _ | .jeq _ | .jne _ | .cmp _ _ => none

/-- R126, R131: where PUSH and CALL store: the decremented SP, once their operand names a register. -/
def storeAddress (i : Instr) (s : State) : Option Byte :=
  match i with
  | .push a | .call a => if a.toNat ≤ 7 then some s.spLess else none
  | .zero | .hlt | .ret | .pop _ | .prn _ | .jmp _ | .jeq _ | .jne _ | .not _ | .ldi _ _
  | .add _ _ | .sub _ _ | .mul _ _ | .div _ _ | .cmp _ _ | .and _ _ | .or _ _ | .xor _ _
  | .shl _ _ | .shr _ _ => none

/-- The fault latch of a next state: as before, or written by a fault that changed nothing else
(R32, R147). -/
def LatchFrame (s t : State) : Prop :=
  t.fault = s.fault ∨ (t.fault.code ≠ .none ∧ t = { s with fault := t.fault })

/-- R95: what every two-register instruction does on operand bytes that name no register, with its
encoding. -/
def FrrEncodingAndFaults (mk : Byte → Byte → Instr) (op : Byte) : Prop :=
  ∀ (s : State) (a b : Byte), encode (mk a b) = [op, a, b] ∧
    (7 < a.toNat → exec (mk a b) s = .next { s with
      fault := ⟨.invalidRegister, s.pc, op, a⟩ }) ∧
    (a.toNat ≤ 7 → 7 < b.toNat → exec (mk a b) s = .next { s with
      fault := ⟨.invalidRegister, s.pc, op, b⟩ })

/-- The same for a one-register instruction (format FR). -/
def FrEncodingAndFaults (mk : Byte → Instr) (op : Byte) : Prop :=
  ∀ (s : State) (a : Byte), encode (mk a) = [op, a] ∧
    (7 < a.toNat → exec (mk a) s = .next { s with
      fault := ⟨.invalidRegister, s.pc, op, a⟩ })

/-- R95: on two registers the instruction completes, writes `f(va, vb)` to operand 1's register and
moves the PC by 3; nothing else changes. -/
def FrrWrites (mk : Byte → Byte → Instr) (f : Byte → Byte → Byte) : Prop :=
  ∀ (s : State) (ra rb : Reg), exec (mk ra.byte rb.byte) s = .next { s with
    x := s.x.set ra (f (s.x.get ra) (s.x.get rb)), pc := s.pc + 3 }

end Sys2Proof.Machine
end

