-- ==== Sys2Proof/Certificates/Slice0/Obligations.lean ====
section
/-! DEFINITION. The statements for the provers, from the numbered rules of spec/. -/

open Sys2Proof Sys2Proof.Machine

/-! Encoding and decoding -/

/-- R78: every instruction is its opcode byte followed by its operands in the order written, and only
its own bytes; with the rule's four examples. The spec marks R78 as derived from R66 and R70; that the
examples' text is read so is the model's (log entry 9). -/
def Obligations.EncodingOfEachInstruction : Prop :=
  (∀ a b : Byte,
    encode .zero = [0x00] ∧ encode .hlt = [0x01] ∧ encode .ret = [0x11] ∧
    encode (.push a) = [0x45, a] ∧ encode (.pop a) = [0x46, a] ∧ encode (.prn a) = [0x47, a] ∧
    encode (.call a) = [0x50, a] ∧ encode (.jmp a) = [0x54, a] ∧ encode (.jeq a) = [0x55, a] ∧
    encode (.jne a) = [0x56, a] ∧ encode (.not a) = [0x69, a] ∧
    encode (.ldi a b) = [0x82, a, b] ∧
    encode (.add a b) = [0xA0, a, b] ∧ encode (.sub a b) = [0xA1, a, b] ∧
    encode (.mul a b) = [0xA2, a, b] ∧ encode (.div a b) = [0xA3, a, b] ∧
    encode (.cmp a b) = [0xA7, a, b] ∧ encode (.and a b) = [0xA8, a, b] ∧
    encode (.or a b) = [0xAA, a, b] ∧ encode (.xor a b) = [0xAB, a, b] ∧
    encode (.shl a b) = [0xAC, a, b] ∧ encode (.shr a b) = [0xAD, a, b]) ∧
  (readAsm "ADD R0, R1".toList).map encode = some [0xA0, 0x00, 0x01] ∧
  (readAsm "LDI R2, 200".toList).map encode = some [0x82, 0x02, 0xC8] ∧
  (readAsm "PUSH R7".toList).map encode = some [0x45, 0x07] ∧
  (readAsm "HLT".toList).map encode = some [0x01]

/-- Words written out bit by bit from R66 and R70 decode to the instructions they stand for. -/
def Obligations.SpecWordsDecode : Prop :=
  decode Config.defaults 0b00000001 0b11111111 0b11111111 = .ok .hlt ∧
  decode Config.defaults 0b01000101 0b00000111 0b11111111 = .ok (.push 7) ∧
  decode Config.defaults 0b01010000 0b00000001 0b00000000 = .ok (.call 1) ∧
  decode Config.defaults 0b01000111 0b00000100 0b00000000 = .ok (.prn 4) ∧
  decode Config.defaults 0b10000010 0b00000010 0b11001000 = .ok (.ldi 2 200) ∧
  decode Config.defaults 0b10100001 0b00000000 0b00000001 = .ok (.sub 0 1)

/-- Decoding the bytes of an instruction that the build has gives it back, with every operand at
every value of its byte, whatever bytes follow (R65, R69, R71). -/
def Obligations.DecodeAfterEncode : Prop :=
  ∀ (p : Params) (i : Instr) (rest : List Byte), inBuild p i = true →
    decodeFront p (encode i ++ rest) = .ok i

/-- A whole program's bytes, each instruction right after the one before it, are read back as that
program: lengths come from the opcodes alone (R65, R75). -/
def Obligations.DisassembleAfterAssemble : Prop :=
  ∀ (p : Params) (is : List Instr), (∀ i ∈ is, inBuild p i = true) →
    disassemble p is.length (assemble is) = .ok is

/-- Each word has one meaning: what bytes decode to encodes to those same bytes, less the ones that
are not part of the instruction (R66, R71). -/
def Obligations.EncodeAfterDecode : Prop :=
  ∀ (p : Params) (op b1 b2 : Byte) (i : Instr), decode p op b1 b2 = .ok i →
    inBuild p i = true ∧ encode i = [op, b1, b2].take (instrLength i)

/-- R73: every byte value not in R70 is illegal, 234 of them with `HAS_AND` true and 235 with it
false, since 0xA8 is added; the LS-8 bytes of instructions the source does not define are among them; an illegal byte at `pc`
raises DecodeError. -/
def Obligations.IllegalOpcodeBytes : Prop :=
  (∀ (p : Params) (op b1 b2 : Byte), isOpcode p op = false ↔ ∀ i, decode p op b1 b2 ≠ .ok i) ∧
  (∀ p : Params, ((List.range 256).filter fun n =>
      decode p (BitVec.ofNat 8 n) 0 0 matches .error _).length = if p.hasAnd then 234 else 235) ∧
  (∀ (p : Params) (b1 b2 : Byte), p.hasAnd = false → ∀ i, decode p 0xA8 b1 b2 ≠ .ok i) ∧
  (∀ op ∈ ([0xA4, 0x65, 0x66, 0x83, 0x84, 0x57, 0x58, 0x59, 0x5A, 0x52, 0x13, 0x48] : List Byte),
    ∀ (p : Params) (b1 b2 : Byte) (i : Instr), decode p op b1 b2 ≠ .ok i) ∧
  (∀ s : State, s.status = .run →
    (∀ b1 b2 i, decode s.params (memRead s.mem s.pc) b1 b2 ≠ .ok i) →
    step s = .next { s with fault := ⟨.decodeError, s.pc, memRead s.mem s.pc, 0⟩ })

/-- R69: a byte that is not part of the instruction has no effect on what is decoded. -/
def Obligations.BytesOutsideTheInstructionAreIgnored : Prop :=
  ∀ (p : Params) (op b1 b2 c1 c2 : Byte) (i : Instr), decode p op b1 b2 = .ok i →
    (instrLength i = 1 → decode p op c1 c2 = .ok i) ∧
    (instrLength i = 2 → decode p op b1 c2 = .ok i)

/-- R72: for every row except ZERO, 1 + bits 7:6 of the opcode equals the length; bit 4 is 1 exactly
for CALL, RET, JMP, JEQ and JNE; bit 5 is 1 exactly for the ALU instructions. -/
def Obligations.OpcodeByteLayout : Prop :=
  ∀ r ∈ opcodeMap,
    (r.mnemonic ≠ "ZERO" → r.form.length = 1 + (r.byte >>> 6).toNat) ∧
    (r.byte.getLsbD 4 = true ↔ r.mnemonic ∈ ["CALL", "RET", "JMP", "JEQ", "JNE"]) ∧
    (r.byte.getLsbD 5 = true ↔ r.mnemonic ∈
      ["ADD", "SUB", "MUL", "DIV", "CMP", "AND", "OR", "XOR", "SHL", "SHR", "NOT"])

/-! The step -/

/-- R85: a step is enabled only when the status is RUN, and then executes
exactly the instruction that the bytes at `pc`, `u8(pc+1)` and `u8(pc+2)` decode to, or raises
DecodeError with `pc` and `op` where they decode to none. In the other statuses the state stays
(R91). That no step is taken while `rst` is asserted is in `BlockStateMachine`. -/
def Obligations.StepRunsTheDecodedInstruction : Prop :=
  ∀ s : State,
    (s.status = .run → ∀ i,
      decode s.params (memRead s.mem s.pc) (memRead s.mem (s.pc + 1)) (memRead s.mem (s.pc + 2)) =
        .ok i → step s = exec i s) ∧
    (s.status = .run → ∀ r,
      decode s.params (memRead s.mem s.pc) (memRead s.mem (s.pc + 1)) (memRead s.mem (s.pc + 2)) =
        .error r → step s = .next { s with fault := ⟨.decodeError, s.pc, memRead s.mem s.pc, 0⟩ }) ∧
    (s.status ≠ .run → step s = .next s)

/-- R89: an opcode byte outside the map raises DecodeError with `fault_pc = pc` and
`fault_opcode = op`, and no other state changes. The map is written out in `isOpcode`. -/
def Obligations.UnknownOpcodeFaults : Prop :=
  ∀ s : State, s.status = .run → isOpcode s.params (memRead s.mem s.pc) = false →
    step s = .next { s with fault := ⟨.decodeError, s.pc, memRead s.mem s.pc, 0⟩ }

/-- R91: in HALTED or FAULTED the core takes no step however many are granted, its state does not
change until `rst` is asserted, and `rst` leaves these states. The block's moves are the model's form
of the inputs (log entry 2). -/
def Obligations.EndedRunsStayEndedUntilReset : Prop :=
  ∀ s : State, s.status ≠ .run →
    (∀ k, runSteps k s = .next s) ∧
    (∀ mv t, blockMove mv s = .next t → t = s ∨ ∃ ws, mv = .assertReset ws) ∧
    (∀ ws, ∃ t, blockMove (.assertReset ws) s = .next t ∧ t.status = .run)

/-- No run stops with a host fault or a refusal: every number of granted steps gives a next state
(R90: a run ends only HALTED or FAULTED, which are states). -/
def Obligations.EveryRunAnswersAState : Prop :=
  ∀ (k : Nat) (s : State), ∃ t, runSteps k s = .next t

/-! What each instruction does -/

/-- R96, R97, R98: ADD, SUB and MUL complete on every pair of registers with the exact result mod
256; a bad operand byte raises InvalidRegister, operand 1 first. -/
def Obligations.AddSubMulResults : Prop :=
  FrrWrites .add (fun va vb => BitVec.ofNat 8 (va.toNat + vb.toNat)) ∧
  FrrEncodingAndFaults .add 0xA0 ∧
  FrrWrites .sub (fun va vb => BitVec.ofNat 8 (va.toNat + 256 - vb.toNat)) ∧
  FrrEncodingAndFaults .sub 0xA1 ∧
  FrrWrites .mul (fun va vb => BitVec.ofNat 8 (va.toNat * vb.toNat)) ∧
  FrrEncodingAndFaults .mul 0xA2

/-- R101, R102, R103, R106: AND, OR, XOR and NOT complete with the bitwise result; a
build without AND has byte 0xA8 illegal. That `exec` of AND has its effect also in states of a build
without AND, which no step runs, is the model's reading (log entry 5). -/
def Obligations.BitwiseResults : Prop :=
  FrrWrites .and (fun va vb => va &&& vb) ∧
  FrrEncodingAndFaults .and 0xA8 ∧
  (∀ (p : Params) (b1 b2 : Byte), decode p 0xA8 b1 b2 =
    if p.hasAnd then .ok (.and b1 b2) else .error (.unknownOpcode 0xA8)) ∧
  FrrWrites .or (fun va vb => va ||| vb) ∧
  FrrEncodingAndFaults .or 0xAA ∧
  FrrWrites .xor (fun va vb => va ^^^ vb) ∧
  FrrEncodingAndFaults .xor 0xAB ∧
  (∀ (s : State) (ra : Reg), exec (.not ra.byte) s = .next { s with
    x := s.x.set ra (255 - s.x.get ra), pc := s.pc + 2 }) ∧
  FrEncodingAndFaults .not 0x69

/-- R104, R105: SHL and SHR complete; the amount is the whole byte, 8 or more gives 0, SHR is logical
under `Right` and the same as SHL under `AsSourceLeft`. -/
def Obligations.ShiftResults : Prop :=
  FrrWrites .shl (fun va vb => BitVec.ofNat 8 (va.toNat * 2 ^ vb.toNat)) ∧
  FrrEncodingAndFaults .shl 0xAC ∧
  (∀ (s : State) (ra rb : Reg), s.params.shrMode = .right →
    exec (.shr ra.byte rb.byte) s = .next { s with
      x := s.x.set ra (BitVec.ofNat 8 ((s.x.get ra).toNat / 2 ^ (s.x.get rb).toNat))
      pc := s.pc + 3 }) ∧
  (∀ (s : State) (ra rb : Reg), s.params.shrMode = .asSourceLeft →
    exec (.shr ra.byte rb.byte) s = .next { s with
      x := s.x.set ra (BitVec.ofNat 8 ((s.x.get ra).toNat * 2 ^ (s.x.get rb).toNat))
      pc := s.pc + 3 }) ∧
  FrrEncodingAndFaults .shr 0xAD ∧
  (∀ (s : State) (ra rb : Reg), 8 ≤ (s.x.get rb).toNat →
    exec (.shl ra.byte rb.byte) s = .next { s with x := s.x.set ra 0, pc := s.pc + 3 } ∧
    exec (.shr ra.byte rb.byte) s = .next { s with x := s.x.set ra 0, pc := s.pc + 3 })

/-- R99: DIV completes with the floor quotient when the divisor is not 0, and raises DivideByZero when
it is, after both register checks. -/
def Obligations.DivideResult : Prop :=
  (∀ (s : State) (ra rb : Reg), s.x.get rb ≠ 0 → ∃ q : Byte,
    exec (.div ra.byte rb.byte) s = .next { s with x := s.x.set ra q, pc := s.pc + 3 } ∧
    q.toNat * (s.x.get rb).toNat ≤ (s.x.get ra).toNat ∧
    (s.x.get ra).toNat < (q.toNat + 1) * (s.x.get rb).toNat) ∧
  (∀ (s : State) (ra rb : Reg), s.x.get rb = 0 →
    exec (.div ra.byte rb.byte) s = .next { s with
      fault := ⟨.divideByZero, s.pc, 0xA3, 0⟩ }) ∧
  FrrEncodingAndFaults .div 0xA3

/-- R100: CMP completes, writes all of FL with exactly one of E, G and L by the unsigned comparison,
and changes no register. -/
def Obligations.CompareSetsFlags : Prop :=
  (∀ (s : State) (ra rb : Reg), ∃ f : Byte,
    exec (.cmp ra.byte rb.byte) s = .next { s with fl := f, pc := s.pc + 3 } ∧
    ((s.x.get ra).toNat = (s.x.get rb).toNat → f = 0x01) ∧
    ((s.x.get ra).toNat > (s.x.get rb).toNat → f = 0x02) ∧
    ((s.x.get ra).toNat < (s.x.get rb).toNat → f = 0x04)) ∧
  FrrEncodingAndFaults .cmp 0xA7

/-- R120: LDI completes with the immediate as it stands, for every immediate and every register, R7
included. -/
def Obligations.LoadImmediateResult : Prop :=
  (∀ (s : State) (ra : Reg) (imm : Byte), exec (.ldi ra.byte imm) s = .next { s with
    x := s.x.set ra imm, pc := s.pc + 3 }) ∧
  (∀ (s : State) (a imm : Byte), encode (.ldi a imm) = [0x82, a, imm] ∧
    (7 < a.toNat → exec (.ldi a imm) s = .next { s with
      fault := ⟨.invalidRegister, s.pc, 0x82, a⟩ }))

/-- R121: PRN completes and appends the register's value to `out`; on a bad operand byte nothing is
emitted. The host shows the value in decimal (R122), so 0xFF as 255. -/
def Obligations.PrintAppendsTheRegister : Prop :=
  (∀ (s : State) (ra : Reg), exec (.prn ra.byte) s = .next { s with
    out := s.out ++ [s.x.get ra], pc := s.pc + 2 }) ∧
  FrEncodingAndFaults .prn 0x47 ∧
  (∀ s : State, s.status = .run → ∀ ra : Reg, s.fetched = .ok (.prn ra.byte) →
    emitted s = some (s.x.get ra)) ∧
  (∀ s : State, outputLines { s with out := [12, 0xFF] } = ["12", "255"])

/-- R126: PUSH completes: SP is decremented mod 256 and the register, read after that, is stored at
the new SP, so `PUSH R7` stores the decremented SP. -/
def Obligations.PushStoresBelowTheStackPointer : Prop :=
  (∀ (s : State) (ra : Reg), exec (.push ra.byte) s = .next { s with
    x := s.x.set .r7 (s.x.get .r7 - 1)
    mem := memWrite s.mem (s.x.get .r7 - 1)
      (if ra = .r7 then s.x.get .r7 - 1 else s.x.get ra)
    pc := s.pc + 2 }) ∧
  FrEncodingAndFaults .push 0x45

/-- R127: POP completes: the byte at SP goes to the register and SP is incremented mod 256; `POP R7`
ends as that byte plus 1. Memory is not changed. -/
def Obligations.PopLoadsFromTheStackPointer : Prop :=
  (∀ (s : State) (ra : Reg), ra ≠ .r7 → exec (.pop ra.byte) s = .next { s with
    x := (s.x.set ra (memRead s.mem (s.x.get .r7))).set .r7 (s.x.get .r7 + 1)
    pc := s.pc + 2 }) ∧
  (∀ s : State, exec (.pop Reg.r7.byte) s = .next { s with
    x := s.x.set .r7 (memRead s.mem (s.x.get .r7) + 1), pc := s.pc + 2 }) ∧
  FrEncodingAndFaults .pop 0x46

/-- R131: CALL completes: it pushes `u8(pc+2)` and jumps to the register, read after the push, so
`CALL R7` jumps to the decremented SP. -/
def Obligations.CallPushesTheReturnAddress : Prop :=
  (∀ (s : State) (ra : Reg), exec (.call ra.byte) s = .next { s with
    x := s.x.set .r7 (s.x.get .r7 - 1)
    mem := memWrite s.mem (s.x.get .r7 - 1) (s.pc + 2)
    pc := if ra = .r7 then s.x.get .r7 - 1 else s.x.get ra }) ∧
  FrEncodingAndFaults .call 0x50

/-- R132: RET completes: the byte at SP goes to the PC, SP is incremented mod 256, and no other
register is written. Its following byte is never used. -/
def Obligations.ReturnPopsThePc : Prop :=
  (∀ s : State, exec .ret s = .next { s with
    pc := memRead s.mem (s.x.get .r7), x := { s.x with r7 := s.x.r7 + 1 } }) ∧
  encode .ret = [0x11] ∧
  (∀ (p : Params) (b1 b2 : Byte), decode p 0x11 b1 b2 = .ok .ret)

/-- R133: JMP completes with the register's value in the PC. -/
def Obligations.JumpSetsThePc : Prop :=
  (∀ (s : State) (ra : Reg), exec (.jmp ra.byte) s = .next { s with pc := s.x.get ra }) ∧
  FrEncodingAndFaults .jmp 0x54

/-- R134, R135: JEQ and JNE complete, taken by bit 0 of FL alone; the operand byte is checked only
when the jump is taken. -/
def Obligations.ConditionalJumps : Prop :=
  (∀ (s : State) (ra : Reg), s.fl.getLsbD 0 = true →
    exec (.jeq ra.byte) s = .next { s with pc := s.x.get ra }) ∧
  (∀ (s : State) (a : Byte), s.fl.getLsbD 0 = false →
    exec (.jeq a) s = .next { s with pc := s.pc + 2 }) ∧
  (∀ (s : State) (a : Byte), s.fl.getLsbD 0 = true → 7 < a.toNat →
    exec (.jeq a) s = .next { s with
      fault := ⟨.invalidRegister, s.pc, 0x55, a⟩ }) ∧
  (∀ (s : State) (ra : Reg), s.fl.getLsbD 0 = false →
    exec (.jne ra.byte) s = .next { s with pc := s.x.get ra }) ∧
  (∀ (s : State) (a : Byte), s.fl.getLsbD 0 = true →
    exec (.jne a) s = .next { s with pc := s.pc + 2 }) ∧
  (∀ (s : State) (a : Byte), s.fl.getLsbD 0 = false → 7 < a.toNat →
    exec (.jne a) s = .next { s with
      fault := ⟨.invalidRegister, s.pc, 0x56, a⟩ }) ∧
  (∀ a : Byte, encode (.jeq a) = [0x55, a] ∧ encode (.jne a) = [0x56, a])

/-- R87: ZERO changes nothing, the PC included, under `Spin`, and raises ZeroSpin under `Fault`; the
bytes after it are ignored. -/
def Obligations.ZeroSpinsOrFaults : Prop :=
  (∀ s : State, s.params.zeroOpcode = .spin → exec .zero s = .next s) ∧
  (∀ s : State, s.params.zeroOpcode = .fault → exec .zero s = .next { s with
    fault := ⟨.zeroSpin, s.pc, 0x00, 0⟩ }) ∧
  encode .zero = [0x00] ∧
  (∀ (p : Params) (b1 b2 : Byte), decode p 0x00 b1 b2 = .ok .zero) ∧
  (∀ s : State, s.status = .run → s.params.zeroOpcode = .spin → memRead s.mem s.pc = 0x00 →
    ∀ k, runSteps k s = .next s)

/-- R88: HLT completes: `running` becomes false and the PC moves by 1 mod 256; the status is HALTED
and no further step is taken; the bytes after it are ignored. -/
def Obligations.HaltEndsTheRun : Prop :=
  (∀ s : State, exec .hlt s = .next { s with running := false, pc := s.pc + 1 }) ∧
  encode .hlt = [0x01] ∧
  (∀ (p : Params) (b1 b2 : Byte), decode p 0x01 b1 b2 = .ok .hlt) ∧
  (∀ s t : State, s.status = .run → exec .hlt s = .next t →
    t.status = .halted ∧ ∀ k, runSteps k t = .next t)

/-! Registers and memory -/

/-- R48: a write sets its cell and changes no other, on every canonical memory; R47: a read has no
effect, so it is a function of the memory alone. The canonical form, and that a write keeps it, is the
model's (log entry 4). -/
def Obligations.MemoryWriteSetsOneCell : Prop :=
  ∀ (m : Memory) (a v : Byte), Memory.wf m = true →
    Memory.wf (memWrite m a v) = true ∧
    ∀ b, memRead (memWrite m a v) b = if b = a then v else memRead m b

/-- Canonical memories that read the same at every address are equal data (log entry 4). -/
def Obligations.EqualReadsGiveEqualMemories : Prop :=
  ∀ m n : Memory, Memory.wf m = true → Memory.wf n = true →
    (∀ a, memRead m a = memRead n a) → m = n

/-- R20: eight registers with no aliases: a write is read back in its register and in no other, and a
register is the value at its number. -/
def Obligations.RegistersAreIndependent : Prop :=
  ∀ (x : Regs) (r q : Reg) (v : Byte),
    (x.set r v).get q = (if q = r then v else x.get q) ∧ x.get q = numbered x q.byte.toNat

/-- R67: a byte from 0 to 7 names the register of that number, and a byte from 8 to 255 names none. -/
def Obligations.RegisterOperandRange : Prop :=
  ∀ v : Byte, (v.toNat ≤ 7 → ∃ r, regOf v = some r ∧ ∀ x : Regs, x.get r = numbered x v.toNat) ∧
    (7 < v.toNat → regOf v = none)

/-- R46, R52: an instruction may start at 0xFE or 0xFF; its operand bytes are then read from 0xFF,
0x00 and 0x01. -/
def Obligations.FetchWrapsAtTheTop : Prop :=
  ∀ s : State,
    (s.pc = 0xFE → s.fetchOp = memRead s.mem 0xFE ∧ s.fetchB1 = memRead s.mem 0xFF ∧
      s.fetchB2 = memRead s.mem 0x00) ∧
    (s.pc = 0xFF → s.fetchOp = memRead s.mem 0xFF ∧ s.fetchB1 = memRead s.mem 0x00 ∧
      s.fetchB2 = memRead s.mem 0x01)

/-! Frames: what an instruction leaves unchanged -/

/-- The forms that write a register (ADD, SUB, MUL, DIV, AND, OR, XOR, SHL, SHR, NOT, LDI) change only
their destination register and the PC; a fault changes only the latch (R95, R106, R120, R147). -/
def Obligations.RegisterFormsFrame : Prop :=
  ∀ (i : Instr) (s t : State), isRegisterForm i = true → exec i s = .next t →
    (∀ r : Reg, destinationByte i ≠ some r.byte → t.x.get r = s.x.get r) ∧
    t.fl = s.fl ∧ t.running = s.running ∧ t.out = s.out ∧ t.params = s.params ∧
    (∀ a, memRead t.mem a = memRead s.mem a) ∧ LatchFrame s t

/-- ZERO, HLT, PRN, JMP, JEQ, JNE and CMP change no register and no byte of memory; only CMP writes
FL, only HLT `running`, only PRN `out`. -/
def Obligations.NonWritingFormsFrame : Prop :=
  ∀ (i : Instr) (s t : State), writesNeither i = true → exec i s = .next t →
    (∀ r : Reg, t.x.get r = s.x.get r) ∧
    (t.fl ≠ s.fl → ∃ a b, i = .cmp a b) ∧
    (t.running ≠ s.running → i = .hlt) ∧
    (t.out ≠ s.out → ∃ a, i = .prn a) ∧ t.params = s.params ∧
    (∀ a, memRead t.mem a = memRead s.mem a) ∧ LatchFrame s t

/-- PUSH and CALL change only SP, the PC and the one byte at the decremented SP, which is the address
the meaning stores to (R126, R131). -/
def Obligations.StoringFormsFrame : Prop :=
  ∀ (i : Instr) (s t : State), (∃ a, i = .push a ∨ i = .call a) → exec i s = .next t →
    (∀ r : Reg, r ≠ .r7 → t.x.get r = s.x.get r) ∧
    t.fl = s.fl ∧ t.running = s.running ∧ t.out = s.out ∧ t.params = s.params ∧
    (∀ a, storeAddress i s ≠ some a → memRead t.mem a = memRead s.mem a) ∧ LatchFrame s t

/-- POP changes only its destination, SP and the PC; RET only SP and the PC; neither changes a byte of
memory (R127, R132). -/
def Obligations.PoppingFormsFrame : Prop :=
  ∀ (i : Instr) (s t : State), (i = .ret ∨ ∃ a, i = .pop a) → exec i s = .next t →
    (∀ r : Reg, r ≠ .r7 → destinationByte i ≠ some r.byte → t.x.get r = s.x.get r) ∧
    t.fl = s.fl ∧ t.running = s.running ∧ t.out = s.out ∧ t.params = s.params ∧
    (∀ a, memRead t.mem a = memRead s.mem a) ∧ LatchFrame s t

/-! Whole-machine rules -/

/-- R29: no step but a CMP's changes FL, and CMP writes all of it whatever it held; only JEQ and JNE
read FL, and only its bit 0. -/
def Obligations.FlagsWrittenByCompareReadByJumps : Prop :=
  (∀ s t : State, step s = .next t → t.fl ≠ s.fl → ∃ a b, s.fetched = .ok (.cmp a b)) ∧
  (∀ (s : State) (ra rb : Reg) (f : Byte), ∃ t,
    exec (.cmp ra.byte rb.byte) s = .next t ∧
    exec (.cmp ra.byte rb.byte) { s with fl := f } = .next t) ∧
  (∀ (i : Instr) (s t : State) (f : Byte), f.getLsbD 0 = s.fl.getLsbD 0 → exec i s = .next t →
    ∃ g, exec i { s with fl := f } = .next { t with fl := g }) ∧
  (∀ (i : Instr) (s t : State) (f : Byte), (∀ a, i ≠ .jeq a ∧ i ≠ .jne a) → exec i s = .next t →
    ∃ g, exec i { s with fl := f } = .next { t with fl := g })

/-- R30: after any number of steps from reset, with any memory and build, FL is 0x00, 0x01, 0x02 or
0x04, and it is not 0x00 once a CMP has executed without a fault. The spec marks R30 as derived from
R28 and R100. -/
def Obligations.FlagsAfterAnyRun : Prop :=
  ∀ (m : Memory) (p : Params) (k : Nat) (t : State),
    runSteps k { State.reset with mem := m, params := p } = .next t →
    t.fl ∈ ([0x00, 0x01, 0x02, 0x04] : List Byte) ∧
    ∀ (j : Nat) (u v : State) (a b : Byte), j < k →
      runSteps j { State.reset with mem := m, params := p } = .next u →
      u.status = .run → u.fetched = .ok (.cmp a b) → step u = .next v → v.status = .run →
      t.fl ≠ 0x00

/-- R31: `running` resets to true and goes from true to false only on HLT; no step sets it. -/
def Obligations.RunningClearedOnlyByHalt : Prop :=
  State.reset.running = true ∧ (∀ s : State, s.assertReset.running = true) ∧
  (∀ s t : State, step s = .next t →
    (s.running = true → t.running = false → s.fetched = .ok .hlt ∧ s.status = .run) ∧
    (s.running = false → t = s))

/-- R147: a step that ends FAULTED wrote only the latch, with the cause, the pc, the opcode and the
bad operand byte (0 for the other causes), and no further step is taken. -/
def Obligations.FaultsArePreciseAndTerminal : Prop :=
  ∀ s t : State, s.status = .run → step s = .next t → t.status = .faulted →
    (∃ c v, expectedFault s = some (c, v) ∧ (c ≠ .invalidRegister → v = 0) ∧
      t = { s with
        fault := ⟨c, s.pc, memRead s.mem s.pc, v⟩ }) ∧
    ∀ k, runSteps k t = .next t

/-- R145: a step in RUN raises at most one fault, the first in the spec's order: DecodeError,
ZeroSpin, InvalidRegister on operand 1, then on operand 2, DivideByZero. -/
def Obligations.FaultPriority : Prop :=
  ∀ s : State, s.status = .run →
    match expectedFault s with
    | some (c, v) => step s = .next { s with
        fault := ⟨c, s.pc, memRead s.mem s.pc, v⟩ }
    | none => ∃ t, step s = .next t ∧ t.fault = s.fault

/-- R143: on register operands that are all 0..7 InvalidRegister cannot occur: the only faults of an
instruction are DIV by zero, and opcode 0x00 in the hardened build. -/
def Obligations.WellFormedInstructionsFaultOnlyOnZero : Prop :=
  ∀ (i : Instr) (s t : State), wellFormed s.params i = true → exec i s = .next t →
    t.fault = s.fault ∨
    (t.fault.code = .divideByZero ∧ ∃ ra rb : Reg, i = .div ra.byte rb.byte ∧ s.x.get rb = 0) ∨
    (t.fault.code = .zeroSpin ∧ i = .zero ∧ s.params.zeroOpcode = .fault)

/-- R32: no instruction can read the latch: changing it changes nothing else of the next state. -/
def Obligations.NoInstructionReadsTheLatch : Prop :=
  ∀ (i : Instr) (s t : State) (l : FaultLatch), exec i s = .next t →
    ∃ l', (l' = l ∨ l' = t.fault) ∧ exec i { s with fault := l } = .next { t with fault := l' }

/-- R27: no instruction copies the PC into a register, and none reads it as data except CALL, which
pushes `u8(pc+2)`: from another PC the registers, FL, `running` and `out` come out the same, and so
does memory but for CALL's byte. The spec marks R27 as derived from R26 and R131. -/
def Obligations.OnlyCallReadsThePc : Prop :=
  ∀ (i : Instr) (s t : State) (q : Byte), exec i s = .next t →
    ∃ u, exec i { s with pc := q } = .next u ∧
      u.x = t.x ∧ u.fl = t.fl ∧ u.running = t.running ∧ u.out = t.out ∧
      ((∀ a, i ≠ .call a) → u.mem = t.mem) ∧
      (∀ ra : Reg, i = .call ra.byte → u.mem = memWrite s.mem (s.x.get .r7 - 1) (q + 2))

/-- R36: the core only appends to `out`: what has been emitted stays, in order, over any run. -/
def Obligations.OutputIsOnlyAppended : Prop :=
  (∀ s t : State, step s = .next t → t.out = s.out ∨
    ∃ ra : Reg, s.fetched = .ok (.prn ra.byte) ∧ t.out = s.out ++ [s.x.get ra]) ∧
  (∀ (k : Nat) (s t : State), runSteps k s = .next t → ∃ new, t.out = s.out ++ new)

/-- R49: of all instructions only PUSH and CALL write memory, one byte at the decremented SP. -/
def Obligations.OnlyPushAndCallWriteMemory : Prop :=
  ∀ s t : State, step s = .next t →
    (∀ a, a ≠ s.x.get .r7 - 1 → memRead t.mem a = memRead s.mem a) ∧
    (t.mem ≠ s.mem → ∃ a, s.fetched = .ok (.push a) ∨ s.fetched = .ok (.call a))

/-- R26: where each instruction that raises no fault leaves the PC. -/
def Obligations.NextPcOfEachInstruction : Prop :=
  ∀ (i : Instr) (s t : State), exec i s = .next t → s.fault.code = .none → t.fault.code = .none →
    t.pc = match i with
      | .zero => s.pc
      | .hlt => s.pc + 1
      | .ret => memRead s.mem (s.x.get .r7)
      | .push _ | .pop _ | .prn _ | .not _ => s.pc + 2
      | .call a | .jmp a => numbered t.x a.toNat
      | .jeq a => if s.fl.getLsbD 0 then numbered s.x a.toNat else s.pc + 2
      | .jne a => if s.fl.getLsbD 0 then s.pc + 2 else numbered s.x a.toNat
      | .ldi _ _ | .add _ _ | .sub _ _ | .mul _ _ | .div _ _ | .cmp _ _ | .and _ _ | .or _ _
      | .xor _ _ | .shl _ _ | .shr _ _ => s.pc + 3

/-! Instructions together -/

/-- R125 to R127: PUSH followed by POP into a register reproduces the pushed value, and SP and every
other register return to their values. PUSH of R7 pushes the decremented SP, and POP into R7 ends as
the pushed value plus 1. The canonical form of the premise is the model's (log entry 4). -/
def Obligations.PushThenPopRestores : Prop :=
  ∀ (s t u : State) (ra rb : Reg), Memory.wf s.mem = true →
    exec (.push ra.byte) s = .next t → exec (.pop rb.byte) t = .next u →
    let pushed := if ra = .r7 then s.x.get .r7 - 1 else s.x.get ra
    u.x = (if rb = .r7 then s.x.set .r7 (pushed + 1) else s.x.set rb pushed) ∧
    u.pc = s.pc + 4 ∧ u.mem = t.mem

/-- R136: CALL, when the byte at its target is RET, returns to exactly the instruction after the
CALL's operand byte, with every register, SP included, as before. The spec marks R136 as derived from
R131 and R132. The canonical form of the premise is the model's (log entry 4). -/
def Obligations.CallThenReturnComesBack : Prop :=
  ∀ (s t u : State) (a : Byte), Memory.wf s.mem = true → s.status = .run →
    s.fetched = .ok (.call a) → step s = .next t → t.status = .run →
    memRead t.mem t.pc = 0x11 → step t = .next u →
    u = { s with pc := s.pc + 2, mem := t.mem }

/-- After CMP, JEQ is taken exactly on equal values and JNE exactly on different ones (R100, R134,
R135). -/
def Obligations.CompareThenJump : Prop :=
  ∀ (s t : State) (ra rb rc : Reg), exec (.cmp ra.byte rb.byte) s = .next t →
    exec (.jeq rc.byte) t = .next { t with
      pc := if s.x.get ra = s.x.get rb then s.x.get rc else s.pc + 5 } ∧
    exec (.jne rc.byte) t = .next { t with
      pc := if s.x.get ra = s.x.get rb then s.pc + 5 else s.x.get rc }

/-- R109: ADD, MUL, AND, OR and XOR are commutative and associative on bytes; SUB is neither. The
spec marks R109 as derived from R96 to R103. -/
def Obligations.AluCommutativityAndAssociativity : Prop :=
  (∀ f ∈ [aluAdd, aluMul, aluAnd, aluOr, aluXor], ∀ x y z : Byte,
    f x y = f y x ∧ f (f x y) z = f x (f y z)) ∧
  (∃ x y : Byte, aluSub x y ≠ aluSub y x) ∧
  (∃ x y z : Byte, aluSub (aluSub x y) z ≠ aluSub x (aluSub y z))

/-! Reset, the invariant and the block -/

/-- R165: the values of the state while `rst` is asserted and when it is released, which are also those
at creation: they are the same whatever the state was, and memory is unchanged by reset. -/
def Obligations.ResetValues : Prop :=
  (∀ s : State, s = State.reset ∨ (∃ u : State, s = u.assertReset) →
    s.x = ⟨0x00, 0x00, 0x00, 0x00, 0x00, 0x00, 0x00, 0xF4⟩ ∧ s.pc = 0x00 ∧ s.fl = 0x00 ∧
    s.running = true ∧ s.fault = ⟨.none, 0x00, 0x00, 0x00⟩ ∧ s.out = [] ∧ s.status = .run) ∧
  (∀ s : State, s.assertReset.mem = s.mem)

/-- Memory is all 0x00 at creation (R61, R166). The build parameters, the model's own field, are R11's
defaults in the reset state and are kept by reset and by every step (log entry 1). -/
def Obligations.MemoryAtCreationAndBuildKept : Prop :=
  (∀ a, memRead State.reset.mem a = 0x00) ∧ State.reset.params = ⟨true, .right, .spin⟩ ∧
  (∀ s : State, s.assertReset.params = s.params) ∧
  (∀ s t : State, step s = .next t → t.params = s.params)

/-- The state after reset meets the invariant: a legal FL (R30) and a clear latch (R32, R165), and a
memory in the canonical form, which is the model's own (log entry 4). -/
def Obligations.ResetMeetsTheInvariant : Prop := State.reset.Inv

/-- From every state that meets the invariant, not only those a run reaches, a step gives a state that
meets it: a legal FL (R30), a truthful latch (R32, R33, R147), and memory in the canonical form, which
is the model's own (log entry 4). -/
def Obligations.StepKeepsTheInvariant : Prop :=
  ∀ s t : State, s.Inv → step s = .next t → t.Inv

/-- R92: how the block moves between its states: `rst` leads to RUN when it is released, RUN ends only
on HLT or a fault, HALTED and FAULTED are left only by `rst`. The moves are the model's form of the
inputs (log entry 2): under `rst` the core takes no step and memory holds the host's writes. -/
def Obligations.BlockStateMachine : Prop :=
  ∀ (mv : HostMove) (s t : State), blockMove mv s = .next t →
    (∀ ws, mv = .assertReset ws → blockState mv s = .reset ∧ t.status = .run ∧
      t = { State.reset with mem := hostWrites ws s.mem, params := s.params }) ∧
    (mv = .grantStep → step s = .next t) ∧
    (mv = .wait → t = s) ∧
    (mv = .grantStep → s.status = .run → t.status = .halted → s.fetched = .ok .hlt) ∧
    (mv = .grantStep → s.status = .run → (t.status = .faulted ↔ expectedFault s ≠ none)) ∧
    (mv = .grantStep → s.status ≠ .run → t.status = s.status)

/-- R56, R62, R63: after a load byte `k` of the image is in cell `k` and every cell the image does not
cover is 0x00; an image of more than 256 bytes is refused. The memory is in the model's canonical form
(log entry 4). -/
def Obligations.ImagePlacement : Prop :=
  ∀ bytes : List Byte,
    (256 < bytes.length → loadImage bytes = none) ∧
    (bytes.length ≤ 256 → ∃ n, loadImage bytes = some n ∧ Memory.wf n = true ∧
      ∀ a : Byte, memRead n a = bytes.getD a.toNat 0x00)

/-- R33, R158: the status by `running` and `fault_code`, with the exit status and diagnostic the host
maps it to. That a run still going has no exit status is the model's reading (log entry 11). -/
def Obligations.StatusAndExitStatus : Prop :=
  ∀ s : State,
    (s.running = true → s.fault.code = .none → s.status = .run ∧ exitStatus s = none) ∧
    (s.running = false → s.fault.code = .none → s.status = .halted ∧ exitStatus s = some 0) ∧
    (s.fault.code ≠ .none → s.status = .faulted ∧ exitStatus s = some 1 ∧
      diagnostic s = some (s.fault.opcode, s.fault.pc))

/-- R37, R140: what the outputs show. Under `rst` they show the reset values; otherwise the status and
the latch, with R140's numbers for the causes; a byte is output exactly in the step of a PRN that
raises no fault. The block's moves are the model's form of the inputs (log entry 2), and no byte
stands for `out_valid` 0 (log entry 3). -/
def Obligations.BlockOutputs : Prop :=
  (∀ (ws : List (Byte × Byte)) (s : State),
    signals (.assertReset ws) s = ⟨none, false, false, 0, 0, 0, 0⟩) ∧
  (∀ (mv : HostMove) (s : State), (∀ ws, mv ≠ .assertReset ws) →
    ((signals mv s).halted = true ↔ s.running = false ∧ s.fault.code = .none) ∧
    ((signals mv s).faulted = true ↔ s.fault.code ≠ .none) ∧
    (signals mv s).faultCode = (match s.fault.code with
      | .none => 0
      | .decodeError => 1
      | .divideByZero => 2
      | .invalidRegister => 3
      | .zeroSpin => 4) ∧
    (signals mv s).faultPc = s.fault.pc ∧ (signals mv s).faultOpcode = s.fault.opcode ∧
    (signals mv s).faultOperand = s.fault.operand) ∧
  (∀ s : State, (signals .wait s).outData = none) ∧
  (∀ (s : State) (v : Byte), (signals .grantStep s).outData = some v ↔
    s.status = .run ∧ ∃ ra : Reg, s.fetched = .ok (.prn ra.byte) ∧ v = s.x.get ra)

/-- R168: booting an image is one move under `rst` that leaves it in memory from address 0x00 up, with
0x00 in every cell it does not cover whatever memory held before (R56); after it the status is RUN,
the PC is 0x00 and SP is 0xF4. An image that is too long is refused (R63). The block's moves are the
model's form of the inputs (log entry 2), and the canonical form of the premise is its own (log
entry 4). -/
def Obligations.BootStartsTheImage : Prop :=
  ∀ (image : List Byte) (s : State), Memory.wf s.mem = true →
    (256 < image.length → boot image s = none) ∧
    (image.length ≤ 256 → ∃ t ws, boot image s = some t ∧
      blockMove (.assertReset ws) s = .next t ∧
      t.status = .run ∧ t.pc = 0x00 ∧ t.x.get .r7 = 0xF4 ∧
      ∀ a : Byte, memRead t.mem a = image.getD a.toNat 0x00)
end

