-- ==== Sys2Proof/Laws/Arith.lean ====
section
/-! SUPPORT. The modulus of R13 as bit-vector arithmetic, for the PC, SP and the ALU. -/

namespace Sys2Proof.Machine

theorem u8_natCast (n : Nat) : u8 (n : Int) = BitVec.ofNat 8 n := by
  simp [u8]

@[simp] theorem State.pcPlus_eq (s : State) (n : Nat) : s.pcPlus n = s.pc + BitVec.ofNat 8 n := by
  have : (s.pc.toNat : Int) + (n : Int) = ((s.pc.toNat + n : Nat) : Int) := by push_cast; rfl
  rw [State.pcPlus, this, u8_natCast, BitVec.ofNat_add, BitVec.ofNat_toNat, BitVec.setWidth_eq]

theorem u8_sub_one (v : Byte) : u8 ((v.toNat : Int) - 1) = v - 1 := by
  revert v; decide

theorem u8_add_one (v : Byte) : u8 ((v.toNat : Int) + 1) = v + 1 := by
  revert v; decide

@[simp] theorem State.spLess_eq (s : State) : s.spLess = s.x.get .r7 - 1 := u8_sub_one _

@[simp] theorem State.spMore_eq (s : State) : s.spMore = s.x.get .r7 + 1 := u8_add_one _

theorem aluAdd_eq (va vb : Byte) : aluAdd va vb = va + vb := by
  have : (va.toNat : Int) + (vb.toNat : Int) = ((va.toNat + vb.toNat : Nat) : Int) := by
    push_cast; rfl
  rw [aluAdd, this, u8_natCast]; simp [BitVec.ofNat_add]

theorem aluMul_eq (va vb : Byte) : aluMul va vb = va * vb := by
  have : (va.toNat : Int) * (vb.toNat : Int) = ((va.toNat * vb.toNat : Nat) : Int) := by
    push_cast; rfl
  rw [aluMul, this, u8_natCast]; simp [BitVec.ofNat_mul]

theorem aluSub_eq (va vb : Byte) : aluSub va vb = va - vb := by
  apply BitVec.eq_of_toNat_eq
  have ha := va.isLt
  have hb := vb.isLt
  simp only [aluSub, u8, BitVec.toNat_ofInt, BitVec.toNat_sub]
  omega

theorem aluNot_eq (va : Byte) : aluNot va = ~~~va := by
  revert va; decide

end Sys2Proof.Machine
end

