-- ==== Sys2Proof/Laws/Decode.lean ====
section
/-! SUPPORT. The decoder: what it answers determines the opcode byte, and an encoded instruction's
bytes are read back whatever follows them. -/

namespace Sys2Proof

/-- An unknown opcode is the only way to be rejected. -/
theorem decode_error {p : Params} {op b1 b2 : Byte} {r : DecodeReject}
    (h : decode p op b1 b2 = .error r) : r = .unknownOpcode op := by
  unfold decode at h
  split at h
  · cases h
  · exact (Except.error.inj h).symm

/-- A row of the map reads its bytes as an instruction of that opcode and length (R70). -/
theorem row_reads {r : Row} (h : r ∈ opcodeMap) (b1 b2 : Byte) :
    opcodeByte (r.form.read b1 b2) = r.byte ∧ instrLength (r.form.read b1 b2) = r.form.length ∧
      encode (r.form.read b1 b2) = [r.byte, b1, b2].take r.form.length := by
  revert r
  simp [opcodeMap, Form.read, Form.length, opcodeByte, instrLength, operandBytes, encode]

/-- The row found for an opcode byte is a row of R70 with that byte. -/
theorem rowOf_some {p : Params} {op : Byte} {r : Row} (h : rowOf p op = some r) :
    r ∈ opcodeMap ∧ r.byte = op ∧ ¬(op = 0xA8 ∧ p.hasAnd = false) := by
  unfold rowOf at h
  split at h
  · cases h
  · next hn =>
    exact ⟨List.mem_of_find?_eq_some h, by simpa using List.find?_some h, hn⟩

/-- What was decoded came from its own opcode byte. -/
theorem decode_opcode {p : Params} {op b1 b2 : Byte} {i : Instr}
    (h : decode p op b1 b2 = .ok i) : opcodeByte i = op := by
  unfold decode at h
  split at h
  · next r hr =>
    cases h
    obtain ⟨hm, hb, -⟩ := rowOf_some hr
    exact (row_reads hm b1 b2).1.trans hb
  · cases h

end Sys2Proof
end

