-- ==== Sys2Proof/Laws/Registers.lean ====
section
/-! SUPPORT. The register file and register operands: a write is read back, other registers keep their
value, and a byte names a register exactly when it is at most 7. -/

namespace Sys2Proof.Machine

@[simp] theorem Regs.get_set_self (x : Regs) (r : Reg) (v : Byte) : (x.set r v).get r = v := by
  cases r <;> rfl

theorem Regs.get_set_other (x : Regs) {r q : Reg} (v : Byte) (h : q ≠ r) :
    (x.set r v).get q = x.get q := by
  cases r <;> cases q <;> first | rfl | exact absurd rfl h

@[simp] theorem Regs.set_set (x : Regs) (r : Reg) (v w : Byte) :
    (x.set r v).set r w = x.set r w := by
  cases r <;> rfl

@[simp] theorem Regs.set_get (x : Regs) (r : Reg) : x.set r (x.get r) = x := by
  cases r <;> rfl

@[simp] theorem regOf_byte (r : Reg) : regOf r.byte = some r := by
  cases r <;> rfl

theorem regOf_eq_some {v : Byte} {r : Reg} (h : regOf v = some r) : v = r.byte := by
  revert v r; decide

theorem regOf_none_iff (v : Byte) : regOf v = none ↔ 7 < v.toNat := by
  revert v; decide

theorem regOf_none {v : Byte} (h : 7 < v.toNat) : regOf v = none := (regOf_none_iff v).2 h

theorem regOf_some_of_le {v : Byte} (h : v.toNat ≤ 7) : ∃ r, regOf v = some r ∧ v = r.byte := by
  cases hr : regOf v with
  | none => have := (regOf_none_iff v).1 hr; omega
  | some r => exact ⟨r, rfl, regOf_eq_some hr⟩

theorem Reg.byte_toNat_le (r : Reg) : r.byte.toNat ≤ 7 := by
  cases r <;> decide

end Sys2Proof.Machine
end

