-- ==== Sys2Proof/Laws/State.lean ====
section
/-! SUPPORT. One lemma for each field under each update of the state, and for each field after reset. -/

namespace Sys2Proof.Machine

@[simp] theorem State.setReg_params (s : State) (r : Reg) (v : Byte) :
    (s.setReg r v).params = s.params := rfl

@[simp] theorem State.setReg_mem (s : State) (r : Reg) (v : Byte) :
    (s.setReg r v).mem = s.mem := rfl

@[simp] theorem State.setReg_x (s : State) (r : Reg) (v : Byte) :
    (s.setReg r v).x = s.x.set r v := rfl

@[simp] theorem State.setReg_pc (s : State) (r : Reg) (v : Byte) :
    (s.setReg r v).pc = s.pc := rfl

@[simp] theorem State.setReg_fl (s : State) (r : Reg) (v : Byte) :
    (s.setReg r v).fl = s.fl := rfl

@[simp] theorem State.setReg_running (s : State) (r : Reg) (v : Byte) :
    (s.setReg r v).running = s.running := rfl

@[simp] theorem State.setReg_fault (s : State) (r : Reg) (v : Byte) :
    (s.setReg r v).fault = s.fault := rfl

@[simp] theorem State.setReg_out (s : State) (r : Reg) (v : Byte) :
    (s.setReg r v).out = s.out := rfl

@[simp] theorem State.setPc_params (s : State) (v : Byte) :
    (s.setPc v).params = s.params := rfl

@[simp] theorem State.setPc_mem (s : State) (v : Byte) :
    (s.setPc v).mem = s.mem := rfl

@[simp] theorem State.setPc_x (s : State) (v : Byte) :
    (s.setPc v).x = s.x := rfl

@[simp] theorem State.setPc_pc (s : State) (v : Byte) :
    (s.setPc v).pc = v := rfl

@[simp] theorem State.setPc_fl (s : State) (v : Byte) :
    (s.setPc v).fl = s.fl := rfl

@[simp] theorem State.setPc_running (s : State) (v : Byte) :
    (s.setPc v).running = s.running := rfl

@[simp] theorem State.setPc_fault (s : State) (v : Byte) :
    (s.setPc v).fault = s.fault := rfl

@[simp] theorem State.setPc_out (s : State) (v : Byte) :
    (s.setPc v).out = s.out := rfl

@[simp] theorem State.setFl_params (s : State) (v : Byte) :
    (s.setFl v).params = s.params := rfl

@[simp] theorem State.setFl_mem (s : State) (v : Byte) :
    (s.setFl v).mem = s.mem := rfl

@[simp] theorem State.setFl_x (s : State) (v : Byte) :
    (s.setFl v).x = s.x := rfl

@[simp] theorem State.setFl_pc (s : State) (v : Byte) :
    (s.setFl v).pc = s.pc := rfl

@[simp] theorem State.setFl_fl (s : State) (v : Byte) :
    (s.setFl v).fl = v := rfl

@[simp] theorem State.setFl_running (s : State) (v : Byte) :
    (s.setFl v).running = s.running := rfl

@[simp] theorem State.setFl_fault (s : State) (v : Byte) :
    (s.setFl v).fault = s.fault := rfl

@[simp] theorem State.setFl_out (s : State) (v : Byte) :
    (s.setFl v).out = s.out := rfl

@[simp] theorem State.store_params (s : State) (a v : Byte) :
    (s.store a v).params = s.params := rfl

@[simp] theorem State.store_mem (s : State) (a v : Byte) :
    (s.store a v).mem = memWrite s.mem a v := rfl

@[simp] theorem State.store_x (s : State) (a v : Byte) :
    (s.store a v).x = s.x := rfl

@[simp] theorem State.store_pc (s : State) (a v : Byte) :
    (s.store a v).pc = s.pc := rfl

@[simp] theorem State.store_fl (s : State) (a v : Byte) :
    (s.store a v).fl = s.fl := rfl

@[simp] theorem State.store_running (s : State) (a v : Byte) :
    (s.store a v).running = s.running := rfl

@[simp] theorem State.store_fault (s : State) (a v : Byte) :
    (s.store a v).fault = s.fault := rfl

@[simp] theorem State.store_out (s : State) (a v : Byte) :
    (s.store a v).out = s.out := rfl

@[simp] theorem State.emit_params (s : State) (v : Byte) :
    (s.emit v).params = s.params := rfl

@[simp] theorem State.emit_mem (s : State) (v : Byte) :
    (s.emit v).mem = s.mem := rfl

@[simp] theorem State.emit_x (s : State) (v : Byte) :
    (s.emit v).x = s.x := rfl

@[simp] theorem State.emit_pc (s : State) (v : Byte) :
    (s.emit v).pc = s.pc := rfl

@[simp] theorem State.emit_fl (s : State) (v : Byte) :
    (s.emit v).fl = s.fl := rfl

@[simp] theorem State.emit_running (s : State) (v : Byte) :
    (s.emit v).running = s.running := rfl

@[simp] theorem State.emit_fault (s : State) (v : Byte) :
    (s.emit v).fault = s.fault := rfl

@[simp] theorem State.emit_out (s : State) (v : Byte) :
    (s.emit v).out = s.out ++ [v] := rfl

@[simp] theorem State.halt_params (s : State) :
    (s.halt).params = s.params := rfl

@[simp] theorem State.halt_mem (s : State) :
    (s.halt).mem = s.mem := rfl

@[simp] theorem State.halt_x (s : State) :
    (s.halt).x = s.x := rfl

@[simp] theorem State.halt_pc (s : State) :
    (s.halt).pc = s.pc := rfl

@[simp] theorem State.halt_fl (s : State) :
    (s.halt).fl = s.fl := rfl

@[simp] theorem State.halt_running (s : State) :
    (s.halt).running = false := rfl

@[simp] theorem State.halt_fault (s : State) :
    (s.halt).fault = s.fault := rfl

@[simp] theorem State.halt_out (s : State) :
    (s.halt).out = s.out := rfl

@[simp] theorem State.takeFault_params (s : State) (c : FaultCode) (o v : Byte) :
    (s.takeFault c o v).params = s.params := rfl

@[simp] theorem State.takeFault_mem (s : State) (c : FaultCode) (o v : Byte) :
    (s.takeFault c o v).mem = s.mem := rfl

@[simp] theorem State.takeFault_x (s : State) (c : FaultCode) (o v : Byte) :
    (s.takeFault c o v).x = s.x := rfl

@[simp] theorem State.takeFault_pc (s : State) (c : FaultCode) (o v : Byte) :
    (s.takeFault c o v).pc = s.pc := rfl

@[simp] theorem State.takeFault_fl (s : State) (c : FaultCode) (o v : Byte) :
    (s.takeFault c o v).fl = s.fl := rfl

@[simp] theorem State.takeFault_running (s : State) (c : FaultCode) (o v : Byte) :
    (s.takeFault c o v).running = s.running := rfl

@[simp] theorem State.takeFault_fault (s : State) (c : FaultCode) (o v : Byte) :
    (s.takeFault c o v).fault = { code := c, pc := s.pc, opcode := o, operand := v } := rfl

@[simp] theorem State.takeFault_out (s : State) (c : FaultCode) (o v : Byte) :
    (s.takeFault c o v).out = s.out := rfl

@[simp] theorem State.assertReset_params (s : State) : s.assertReset.params = s.params := rfl

@[simp] theorem State.assertReset_mem (s : State) : s.assertReset.mem = s.mem := rfl

@[simp] theorem State.assertReset_x (s : State) : s.assertReset.x = State.reset.x := rfl

@[simp] theorem State.assertReset_pc (s : State) : s.assertReset.pc = 0 := rfl

@[simp] theorem State.assertReset_fl (s : State) : s.assertReset.fl = 0 := rfl

@[simp] theorem State.assertReset_running (s : State) : s.assertReset.running = true := rfl

@[simp] theorem State.assertReset_fault (s : State) : s.assertReset.fault = FaultLatch.clear := rfl

@[simp] theorem State.assertReset_out (s : State) : s.assertReset.out = [] := rfl

end Sys2Proof.Machine
end

