-- ==== Sys2Proof/Laws/Exec.lean ====
section
/-! SUPPORT. What each shared operation and `exec` can answer, once for all. -/

namespace Sys2Proof.Machine

theorem withReg_byte (i : Instr) (r : Reg) (s : State) (go : Reg → Result) :
    withReg i r.byte s go = go r := by
  simp [withReg]

theorem withReg_invalid (i : Instr) {v : Byte} (h : 7 < v.toNat) (s : State) (go : Reg → Result) :
    withReg i v s go = .next (s.takeFault .invalidRegister (opcodeByte i) v) := by
  simp [withReg, regOf_none h, raiseFault]

/-- A register check goes on with the register its byte names, or takes InvalidRegister. -/
theorem withReg_cases {i : Instr} {v : Byte} {s t : State} {go : Reg → Result}
    (h : withReg i v s go = .next t) :
    (∃ r, v = r.byte ∧ go r = .next t) ∨
      (7 < v.toNat ∧ t = s.takeFault .invalidRegister (opcodeByte i) v) := by
  by_cases hv : v.toNat ≤ 7
  · obtain ⟨r, -, rfl⟩ := regOf_some_of_le hv
    exact .inl ⟨r, rfl, by rwa [withReg_byte] at h⟩
  · rw [withReg_invalid i (by omega)] at h
    exact .inr ⟨by omega, (Host.Outcome.next.inj h).symm⟩

/-- Two register checks: both registers, or InvalidRegister on the first bad byte. -/
theorem withTwoRegs_cases {i : Instr} {a b : Byte} {s t : State} {go : Reg → Reg → Result}
    (h : withTwoRegs i a b s go = .next t) :
    (∃ ra rb, a = ra.byte ∧ b = rb.byte ∧ go ra rb = .next t) ∨
      (7 < a.toNat ∧ t = s.takeFault .invalidRegister (opcodeByte i) a) ∨
      (a.toNat ≤ 7 ∧ 7 < b.toNat ∧ t = s.takeFault .invalidRegister (opcodeByte i) b) := by
  rcases withReg_cases h with ⟨ra, rfl, ha⟩ | ha
  · rcases withReg_cases ha with ⟨rb, hb, hg⟩ | ⟨hb, hg⟩
    · exact .inl ⟨ra, rb, rfl, hb, hg⟩
    · exact .inr (.inr ⟨ra.byte_toNat_le, hb, hg⟩)
  · exact .inr (.inl ha)

/-- The ALU frame writes one register and the PC, or takes InvalidRegister. -/
theorem aluFrame_cases {i : Instr} {a b : Byte} {f : Byte → Byte → Byte} {s t : State}
    (h : aluFrame i a b f s = .next t) :
    (∃ ra rb, a = ra.byte ∧ b = rb.byte ∧
      t = { s with x := s.x.set ra (f (s.x.get ra) (s.x.get rb)), pc := s.pc + 3 }) ∨
      ∃ v, 7 < v.toNat ∧ t = s.takeFault .invalidRegister (opcodeByte i) v := by
  rcases withTwoRegs_cases h with ⟨ra, rb, rfl, rfl, hg⟩ | ⟨ha, h⟩ | ⟨-, hb, h⟩
  · refine .inl ⟨ra, rb, rfl, rfl, ?_⟩
    simpa [State.setReg, State.setPc, State.reg] using (Host.Outcome.next.inj hg).symm
  · exact .inr ⟨a, ha, h⟩
  · exact .inr ⟨b, hb, h⟩

/-- A taken jump sets the PC, or takes InvalidRegister. -/
theorem jumpTo_cases {i : Instr} {a : Byte} {s t : State} (h : jumpTo i a s = .next t) :
    (∃ ra, a = ra.byte ∧ t = { s with pc := s.x.get ra }) ∨
      (7 < a.toNat ∧ t = s.takeFault .invalidRegister (opcodeByte i) a) := by
  rcases withReg_cases h with ⟨ra, rfl, hg⟩ | h
  · exact .inl ⟨ra, rfl, (Host.Outcome.next.inj hg).symm⟩
  · exact .inr h

/-- The state an instruction leaves on operands that name registers, when it raises no fault: the
effect of its rule, with nothing else changed. -/
def Effect (i : Instr) (s t : State) : Prop :=
  match i with
  | .zero => t = s
  | .hlt => t = { s with running := false, pc := s.pc + 1 }
  | .ret => t = { s with pc := memRead s.mem (s.x.get .r7), x := s.x.set .r7 (s.x.get .r7 + 1) }
  | .push a => ∃ ra, a = ra.byte ∧ t = { s with
      x := s.x.set .r7 (s.x.get .r7 - 1)
      mem := memWrite s.mem (s.x.get .r7 - 1) ((s.x.set .r7 (s.x.get .r7 - 1)).get ra)
      pc := s.pc + 2 }
  | .pop a => ∃ ra, a = ra.byte ∧ t = { s with
      x := (s.x.set ra (memRead s.mem (s.x.get .r7))).set .r7
        ((s.x.set ra (memRead s.mem (s.x.get .r7))).get .r7 + 1)
      pc := s.pc + 2 }
  | .prn a => ∃ ra, a = ra.byte ∧ t = { s with out := s.out ++ [s.x.get ra], pc := s.pc + 2 }
  | .call a => ∃ ra, a = ra.byte ∧ t = { s with
      x := s.x.set .r7 (s.x.get .r7 - 1)
      mem := memWrite s.mem (s.x.get .r7 - 1) (s.pc + 2)
      pc := (s.x.set .r7 (s.x.get .r7 - 1)).get ra }
  | .jmp a => ∃ ra, a = ra.byte ∧ t = { s with pc := s.x.get ra }
  | .jeq a => (s.fl.getLsbD 0 = true ∧ ∃ ra, a = ra.byte ∧ t = { s with pc := s.x.get ra }) ∨
      (s.fl.getLsbD 0 = false ∧ t = { s with pc := s.pc + 2 })
  | .jne a => (s.fl.getLsbD 0 = false ∧ ∃ ra, a = ra.byte ∧ t = { s with pc := s.x.get ra }) ∨
      (s.fl.getLsbD 0 = true ∧ t = { s with pc := s.pc + 2 })
  | .not a => ∃ ra, a = ra.byte ∧ t = { s with
      x := s.x.set ra (aluNot (s.x.get ra)), pc := s.pc + 2 }
  | .ldi a imm => ∃ ra, a = ra.byte ∧ t = { s with x := s.x.set ra imm, pc := s.pc + 3 }
  | .cmp a b => ∃ ra rb, a = ra.byte ∧ b = rb.byte ∧ t = { s with
      fl := compareFlags (s.x.get ra) (s.x.get rb), pc := s.pc + 3 }
  | .div a b => ∃ ra rb, a = ra.byte ∧ b = rb.byte ∧ s.x.get rb ≠ 0 ∧ t = { s with
      x := s.x.set ra (aluDiv (s.x.get ra) (s.x.get rb)), pc := s.pc + 3 }
  | .add a b => Writes a b aluAdd s t
  | .sub a b => Writes a b aluSub s t
  | .mul a b => Writes a b aluMul s t
  | .and a b => Writes a b aluAnd s t
  | .or a b => Writes a b aluOr s t
  | .xor a b => Writes a b aluXor s t
  | .shl a b => Writes a b aluShl s t
  | .shr a b => Writes a b (aluShr s.params.shrMode) s t
where
  Writes (a b : Byte) (f : Byte → Byte → Byte) (s t : State) : Prop :=
    ∃ ra rb, a = ra.byte ∧ b = rb.byte ∧
      t = { s with x := s.x.set ra (f (s.x.get ra) (s.x.get rb)), pc := s.pc + 3 }

/-- The faults an instruction itself can take: its cause and the operand the latch records. -/
def OwnFault (i : Instr) (s : State) (c : FaultCode) (v : Byte) : Prop :=
  (c = .invalidRegister ∧ 7 < v.toNat ∧ v ∈ registerOperands i) ∨
    (c = .zeroSpin ∧ v = 0 ∧ i = .zero ∧ s.params.zeroOpcode = .fault) ∨
    (c = .divideByZero ∧ v = 0 ∧ ∃ ra rb : Reg, i = .div ra.byte rb.byte ∧ s.x.get rb = 0)

/-- Everything `exec` can do: the instruction's effect, or one of its own faults. -/
theorem exec_cases {i : Instr} {s t : State} (h : exec i s = .next t) :
    Effect i s t ∨ ∃ c v, OwnFault i s c v ∧ t = s.takeFault c (opcodeByte i) v := by
  have alu : ∀ {i : Instr} {a b : Byte} {f : Byte → Byte → Byte}, registerOperands i = [a, b] →
      aluFrame i a b f s = .next t →
      Effect.Writes a b f s t ∨ ∃ c v, OwnFault i s c v ∧ t = s.takeFault c (opcodeByte i) v := by
    intro i a b f hi h
    rcases withTwoRegs_cases h with ⟨ra, rb, rfl, rfl, hg⟩ | ⟨ha, h⟩ | ⟨-, hb, h⟩
    · refine .inl ⟨ra, rb, rfl, rfl, ?_⟩
      simpa [State.setReg, State.setPc, State.reg] using (Host.Outcome.next.inj hg).symm
    · exact .inr ⟨_, a, .inl ⟨rfl, ha, by simp [hi]⟩, h⟩
    · exact .inr ⟨_, b, .inl ⟨rfl, hb, by simp [hi]⟩, h⟩
  have one : ∀ {i : Instr} {a : Byte} {P : Prop}, a ∈ registerOperands i →
      (P ∨ (7 < a.toNat ∧ t = s.takeFault .invalidRegister (opcodeByte i) a)) →
      P ∨ ∃ c v, OwnFault i s c v ∧ t = s.takeFault c (opcodeByte i) v := by
    rintro i a P hi (h | ⟨ha, h⟩)
    · exact .inl h
    · exact .inr ⟨_, a, .inl ⟨rfl, ha, hi⟩, h⟩
  cases i with
  | zero =>
    simp only [exec, execZero] at h
    split at h
    · exact .inl (Host.Outcome.next.inj h).symm
    · next hz => exact .inr ⟨_, _, .inr (.inl ⟨rfl, rfl, rfl, hz⟩), (Host.Outcome.next.inj h).symm⟩
  | hlt => exact .inl (by simpa [exec, execHlt, State.halt, State.setPc, Effect] using h.symm)
  | ret =>
    exact .inl (by
      simpa [exec, execRet, State.load, State.sp, State.reg, State.setPc, State.setReg, Effect]
        using h.symm)
  | push a =>
    refine one (a := a) (by simp [registerOperands]) ((withReg_cases h).imp_left ?_)
    rintro ⟨ra, rfl, hg⟩
    refine ⟨ra, rfl, ?_⟩
    simpa [State.pushByte, State.setPc, State.setReg, State.store, State.reg, State.sp]
      using (Host.Outcome.next.inj hg).symm
  | pop a =>
    refine one (a := a) (by simp [registerOperands]) ((withReg_cases h).imp_left ?_)
    rintro ⟨ra, rfl, hg⟩
    refine ⟨ra, rfl, ?_⟩
    simpa [State.setPc, State.setReg, State.load, State.reg, State.sp]
      using (Host.Outcome.next.inj hg).symm
  | prn a =>
    refine one (a := a) (by simp [registerOperands]) ((withReg_cases h).imp_left ?_)
    rintro ⟨ra, rfl, hg⟩
    exact ⟨ra, rfl, by
      simpa [State.setPc, State.emit, State.reg] using (Host.Outcome.next.inj hg).symm⟩
  | call a =>
    refine one (a := a) (by simp [registerOperands]) ((withReg_cases h).imp_left ?_)
    rintro ⟨ra, rfl, hg⟩
    refine ⟨ra, rfl, ?_⟩
    simpa [State.pushByte, State.setPc, State.setReg, State.store, State.reg, State.sp]
      using (Host.Outcome.next.inj hg).symm
  | jmp a => exact one (a := a) (by simp [registerOperands]) (jumpTo_cases h)
  | jeq a =>
    by_cases he : s.fl.getLsbD 0 = true
    · simp only [exec, execJeq, State.eFlag, he, if_true] at h
      exact one (a := a) (by simp [registerOperands]) ((jumpTo_cases h).imp_left fun h => .inl ⟨he, h⟩)
    · simp only [exec, execJeq, State.eFlag, he] at h
      exact .inl (.inr ⟨by simpa using he, by simpa [State.setPc] using h.symm⟩)
  | jne a =>
    by_cases he : s.fl.getLsbD 0 = false
    · simp only [exec, execJne, State.eFlag, he, if_true] at h
      exact one (a := a) (by simp [registerOperands]) ((jumpTo_cases h).imp_left fun h => .inl ⟨he, h⟩)
    · simp only [exec, execJne, State.eFlag, he] at h
      exact .inl (.inr ⟨by simpa using he, by simpa [State.setPc] using h.symm⟩)
  | not a =>
    refine one (a := a) (by simp [registerOperands]) ((withReg_cases h).imp_left ?_)
    rintro ⟨ra, rfl, hg⟩
    exact ⟨ra, rfl, by
      simpa [State.setPc, State.setReg, State.reg] using (Host.Outcome.next.inj hg).symm⟩
  | ldi a imm =>
    refine one (a := a) (by simp [registerOperands]) ((withReg_cases h).imp_left ?_)
    rintro ⟨ra, rfl, hg⟩
    exact ⟨ra, rfl, by simpa [State.setPc, State.setReg] using (Host.Outcome.next.inj hg).symm⟩
  | cmp a b =>
    rcases withTwoRegs_cases h with ⟨ra, rb, rfl, rfl, hg⟩ | ⟨ha, h⟩ | ⟨-, hb, h⟩
    · refine .inl ⟨ra, rb, rfl, rfl, ?_⟩
      simpa [State.setFl, State.setPc, State.reg] using (Host.Outcome.next.inj hg).symm
    · exact .inr ⟨_, a, .inl ⟨rfl, ha, by simp [registerOperands]⟩, h⟩
    · exact .inr ⟨_, b, .inl ⟨rfl, hb, by simp [registerOperands]⟩, h⟩
  | div a b =>
    rcases withTwoRegs_cases h with ⟨ra, rb, rfl, rfl, hg⟩ | ⟨ha, h⟩ | ⟨-, hb, h⟩
    · split at hg
      · next hz =>
        exact .inr ⟨_, _, .inr (.inr ⟨rfl, rfl, ra, rb, rfl, hz⟩),
          (Host.Outcome.next.inj hg).symm⟩
      · next hz =>
        refine .inl ⟨ra, rb, rfl, rfl, hz, ?_⟩
        simpa [State.setReg, State.setPc, State.reg] using (Host.Outcome.next.inj hg).symm
    · exact .inr ⟨_, a, .inl ⟨rfl, ha, by simp [registerOperands]⟩, h⟩
    · exact .inr ⟨_, b, .inl ⟨rfl, hb, by simp [registerOperands]⟩, h⟩
  | add a b => exact alu rfl h
  | sub a b => exact alu rfl h
  | mul a b => exact alu rfl h
  | and a b => exact alu rfl h
  | or a b => exact alu rfl h
  | xor a b => exact alu rfl h
  | shl a b => exact alu rfl h
  | shr a b => exact alu rfl h

theorem OwnFault.code_ne_none {i : Instr} {s : State} {c : FaultCode} {v : Byte}
    (h : OwnFault i s c v) : c ≠ .none := by
  rcases h with ⟨rfl, -⟩ | ⟨rfl, -⟩ | ⟨rfl, -⟩ <;> simp

/-! An effect, field by field: which instructions alone change each field. -/

theorem Effect.fault_params {i : Instr} {s t : State} (h : Effect i s t) :
    t.fault = s.fault ∧ t.params = s.params := by
  cases i <;> simp only [Effect, Effect.Writes] at h
  case jeq => rcases h with ⟨-, ra, rfl, rfl⟩ | ⟨-, rfl⟩ <;> exact ⟨rfl, rfl⟩
  case jne => rcases h with ⟨-, ra, rfl, rfl⟩ | ⟨-, rfl⟩ <;> exact ⟨rfl, rfl⟩
  case div => obtain ⟨ra, rb, rfl, rfl, -, rfl⟩ := h; exact ⟨rfl, rfl⟩
  all_goals first
    | (obtain rfl := h; exact ⟨rfl, rfl⟩)
    | (obtain ⟨ra, rfl, rfl⟩ := h; exact ⟨rfl, rfl⟩)
    | (obtain ⟨ra, rb, rfl, rfl, rfl⟩ := h; exact ⟨rfl, rfl⟩)

theorem Effect.fl_of_not_cmp {i : Instr} {s t : State} (h : Effect i s t)
    (hi : ∀ a b, i ≠ .cmp a b) : t.fl = s.fl := by
  cases i <;> simp only [Effect, Effect.Writes] at h
  case jeq => rcases h with ⟨-, ra, rfl, rfl⟩ | ⟨-, rfl⟩ <;> rfl
  case jne => rcases h with ⟨-, ra, rfl, rfl⟩ | ⟨-, rfl⟩ <;> rfl
  case div => obtain ⟨ra, rb, rfl, rfl, -, rfl⟩ := h; rfl
  case cmp a b => exact absurd rfl (hi a b)
  all_goals first
    | (obtain rfl := h; rfl)
    | (obtain ⟨ra, rfl, rfl⟩ := h; rfl)
    | (obtain ⟨ra, rb, rfl, rfl, rfl⟩ := h; rfl)

theorem Effect.running_of_not_hlt {i : Instr} {s t : State} (h : Effect i s t)
    (hi : i ≠ .hlt) : t.running = s.running := by
  cases i <;> simp only [Effect, Effect.Writes] at h
  case jeq => rcases h with ⟨-, ra, rfl, rfl⟩ | ⟨-, rfl⟩ <;> rfl
  case jne => rcases h with ⟨-, ra, rfl, rfl⟩ | ⟨-, rfl⟩ <;> rfl
  case div => obtain ⟨ra, rb, rfl, rfl, -, rfl⟩ := h; rfl
  case hlt => exact absurd rfl hi
  all_goals first
    | (obtain rfl := h; rfl)
    | (obtain ⟨ra, rfl, rfl⟩ := h; rfl)
    | (obtain ⟨ra, rb, rfl, rfl, rfl⟩ := h; rfl)

theorem Effect.out_of_not_prn {i : Instr} {s t : State} (h : Effect i s t)
    (hi : ∀ a, i ≠ .prn a) : t.out = s.out := by
  cases i <;> simp only [Effect, Effect.Writes] at h
  case jeq => rcases h with ⟨-, ra, rfl, rfl⟩ | ⟨-, rfl⟩ <;> rfl
  case jne => rcases h with ⟨-, ra, rfl, rfl⟩ | ⟨-, rfl⟩ <;> rfl
  case div => obtain ⟨ra, rb, rfl, rfl, -, rfl⟩ := h; rfl
  case prn a => exact absurd rfl (hi a)
  all_goals first
    | (obtain rfl := h; rfl)
    | (obtain ⟨ra, rfl, rfl⟩ := h; rfl)
    | (obtain ⟨ra, rb, rfl, rfl, rfl⟩ := h; rfl)

theorem Effect.mem_of_not_storing {i : Instr} {s t : State} (h : Effect i s t)
    (hi : ∀ a, i ≠ .push a ∧ i ≠ .call a) : t.mem = s.mem := by
  cases i <;> simp only [Effect, Effect.Writes] at h
  case jeq => rcases h with ⟨-, ra, rfl, rfl⟩ | ⟨-, rfl⟩ <;> rfl
  case jne => rcases h with ⟨-, ra, rfl, rfl⟩ | ⟨-, rfl⟩ <;> rfl
  case div => obtain ⟨ra, rb, rfl, rfl, -, rfl⟩ := h; rfl
  case push a => exact absurd rfl (hi a).1
  case call a => exact absurd rfl (hi a).2
  all_goals first
    | (obtain rfl := h; rfl)
    | (obtain ⟨ra, rfl, rfl⟩ := h; rfl)
    | (obtain ⟨ra, rb, rfl, rfl, rfl⟩ := h; rfl)

/-- `exec` always answers a next state. -/
theorem exec_answers (i : Instr) (s : State) : ∃ t, exec i s = .next t := by
  cases i <;>
    simp only [exec, execZero, execHlt, execRet, execPush, execPop, execPrn, execCall, execJmp,
      execJeq, execJne, execNot, execLdi, execAdd, execSub, execMul, execDiv, execCmp, execAnd,
      execOr, execXor, execShl, execShr, aluFrame, withTwoRegs, jumpTo, withReg, raiseFault] <;>
    (repeat' split) <;> exact ⟨_, rfl⟩

end Sys2Proof.Machine
end

