-- ==== Sys2Proof/Laws/Memory.lean ====
section
/-! SUPPORT. Memory: a store is read back, every other cell keeps its value, and the canonical form
is kept by every operation. -/

namespace Sys2Proof.Machine

theorem Memory.wf_cons {k : Nat} {v : Byte} {m : Memory} :
    Memory.wf ((k, v) :: m) = true ↔
      k < Config.memorySize ∧ v ≠ Config.unlistedByte ∧ (∀ c ∈ m, k < c.1) ∧ Memory.wf m = true := by
  simp [Memory.wf, and_assoc]

/-- Below the first listed address nothing is listed. -/
theorem lookupCell_of_below {m : Memory} {a : Nat} (h : ∀ c ∈ m, a < c.1) :
    lookupCell m a = Config.unlistedByte := by
  induction m with
  | nil => rfl
  | cons c m ih =>
    obtain ⟨k, w⟩ := c
    have hk : a < k := h (k, w) (by simp)
    have : k ≠ a := by omega
    simp only [lookupCell, this, if_false]
    exact ih fun c hc => h c (by simp [hc])

theorem lookupCell_store_other (m : Memory) {a b : Nat} (v : Byte) (h : b ≠ a) :
    lookupCell (storeCell m a v) b = lookupCell m b := by
  induction m with
  | nil => simp only [storeCell]; split <;> simp [lookupCell, Ne.symm h]
  | cons c m ih =>
    obtain ⟨k, w⟩ := c
    simp only [storeCell]
    have hab : a ≠ b := Ne.symm h
    split_ifs with h1 h2 h3 h4
    · rfl
    · simp [lookupCell, hab]
    · subst h3; simp [lookupCell, hab]
    · subst h3; simp [lookupCell, hab]
    · simp only [lookupCell, ih]

theorem lookupCell_store_self {m : Memory} (hm : Memory.wf m = true) (a : Nat) (v : Byte) :
    lookupCell (storeCell m a v) a = v := by
  induction m with
  | nil => simp only [storeCell]; split <;> simp_all [lookupCell]
  | cons c m ih =>
    obtain ⟨k, w⟩ := c
    obtain ⟨-, -, hlt, hwf⟩ := Memory.wf_cons.1 hm
    simp only [storeCell]
    split_ifs with h1 h2 h3 h4
    · rw [h2]
      refine lookupCell_of_below fun c hc => ?_
      rcases List.mem_cons.1 hc with rfl | hc
      · exact h1
      · exact lt_trans h1 (hlt c hc)
    · simp [lookupCell]
    · rw [h4, h3]
      exact lookupCell_of_below hlt
    · simp [lookupCell]
    · simp only [lookupCell, Ne.symm h3, if_false]
      exact ih hwf

theorem mem_storeCell {m : Memory} {a : Nat} {v : Byte} {c : Host.Cell}
    (hc : c ∈ storeCell m a v) : c ∈ m ∨ c = (a, v) := by
  induction m with
  | nil => simp only [storeCell] at hc; split at hc <;> simp_all
  | cons d m ih =>
    obtain ⟨k, w⟩ := d
    simp only [storeCell] at hc
    split_ifs at hc <;> simp only [List.mem_cons] at hc ⊢ <;> tauto

theorem wf_storeCell {m : Memory} (hm : Memory.wf m = true) {a : Nat} (ha : a < Config.memorySize)
    (v : Byte) : Memory.wf (storeCell m a v) = true := by
  induction m with
  | nil => simp only [storeCell]; split <;> simp_all [Memory.wf]
  | cons c m ih =>
    obtain ⟨k, w⟩ := c
    obtain ⟨hk, hw, hlt, hwf⟩ := Memory.wf_cons.1 hm
    simp only [storeCell]
    split_ifs with h1 h2 h3 h4
    · exact hm
    · refine Memory.wf_cons.2 ⟨ha, h2, fun c hc => ?_, hm⟩
      rcases List.mem_cons.1 hc with rfl | hc
      · exact h1
      · exact lt_trans h1 (hlt c hc)
    · exact hwf
    · exact Memory.wf_cons.2 ⟨ha, h4, fun c hc => h3 ▸ hlt c hc, hwf⟩
    · refine Memory.wf_cons.2 ⟨hk, hw, fun c hc => ?_, ih hwf⟩
      rcases mem_storeCell hc with hc | rfl
      · exact hlt c hc
      · show k < a; omega

/-- Every write the core makes keeps the canonical form. -/
theorem wf_memWrite {m : Memory} (hm : Memory.wf m = true) (a v : Byte) :
    Memory.wf (memWrite m a v) = true :=
  wf_storeCell hm a.isLt v

theorem memRead_memWrite_self {m : Memory} (hm : Memory.wf m = true) (a v : Byte) :
    memRead (memWrite m a v) a = v :=
  lookupCell_store_self hm a.toNat v

theorem memRead_memWrite_other (m : Memory) {a b : Byte} (v : Byte) (h : b ≠ a) :
    memRead (memWrite m a v) b = memRead m b :=
  lookupCell_store_other m v fun e => h (BitVec.eq_of_toNat_eq e)

end Sys2Proof.Machine
end

