-- ==== Sys2Proof/Laws/Host.lean ====
section
/-! SUPPORT. The host's ways to write memory keep its canonical form too. -/

namespace Sys2Proof.Machine

theorem wf_hostWrites (ws : List (Byte × Byte)) {m : Memory} (hm : Memory.wf m = true) :
    Memory.wf (hostWrites ws m) = true := by
  induction ws generalizing m with
  | nil => exact hm
  | cons w ws ih => exact ih (wf_memWrite hm w.1 w.2)

theorem hostWrites_append (ws vs : List (Byte × Byte)) (m : Memory) :
    hostWrites (ws ++ vs) m = hostWrites vs (hostWrites ws m) := by
  induction ws generalizing m with
  | nil => rfl
  | cons w ws ih => exact ih _

/-- The last of the host's writes is read back in its cell and in no other. -/
theorem memRead_hostWrites_concat (ws : List (Byte × Byte)) {m : Memory} (hm : Memory.wf m = true)
    (a v b : Byte) : memRead (hostWrites (ws ++ [(a, v)]) m) b =
      if b = a then v else memRead (hostWrites ws m) b := by
  rw [hostWrites_append, hostWrites, hostWrites]
  split_ifs with h
  · rw [h, memRead_memWrite_self (wf_hostWrites ws hm)]
  · exact memRead_memWrite_other _ v h

theorem wf_placeBytes (bytes : List Byte) {k : Nat} {m : Memory} (hm : Memory.wf m = true)
    (hk : k + bytes.length ≤ Config.memorySize) : Memory.wf (placeBytes k bytes m) = true := by
  induction bytes generalizing k m with
  | nil => exact hm
  | cons v bytes ih =>
    simp only [List.length_cons] at hk
    exact ih (wf_storeCell hm (by omega) v) (by omega)

theorem loadImage_some {bytes : List Byte} {m : Memory} (h : loadImage bytes = some m) :
    bytes.length ≤ Config.memorySize ∧ m = placeBytes 0 bytes [] := by
  unfold loadImage at h
  split at h
  · cases h
  · exact ⟨by omega, (Option.some.inj h).symm⟩

theorem wf_loadImage {bytes : List Byte} {m : Memory} (h : loadImage bytes = some m) :
    Memory.wf m = true := by
  obtain ⟨hl, rfl⟩ := loadImage_some h
  exact wf_placeBytes bytes rfl (by omega)

/-- What every cell reads after bytes are placed from `k` up. -/
theorem lookupCell_placeBytes (bytes : List Byte) {k : Nat} {m : Memory} (hm : Memory.wf m = true)
    (hk : k + bytes.length ≤ Config.memorySize) (a : Nat) :
    lookupCell (placeBytes k bytes m) a =
      if a < k then lookupCell m a else bytes.getD (a - k) (lookupCell m a) := by
  induction bytes generalizing k m with
  | nil => simp [placeBytes]
  | cons v bytes ih =>
    simp only [List.length_cons] at hk
    rw [placeBytes, ih (wf_storeCell hm (by omega) v) (by omega)]
    rcases lt_trichotomy a k with h | rfl | h
    · rw [if_pos (by omega), if_pos h, lookupCell_store_other m v (by omega)]
    · simp [lookupCell_store_self hm]
    · rw [if_neg (by omega), if_neg (by omega), show a - k = (a - (k + 1)) + 1 by omega,
        List.getD_cons_succ, lookupCell_store_other m v (by omega)]

theorem wf_withFetchWord {s : State} (hm : Memory.wf s.mem = true) (nbits w : Nat) :
    Memory.wf (s.withFetchWord nbits w).mem = true :=
  wf_memWrite (wf_memWrite (wf_memWrite hm _ _) _ _) _ _

theorem wf_reset : Memory.wf State.reset.mem = true := rfl

end Sys2Proof.Machine
end

