-- ==== Sys2Proof/Laws/PerInstr.lean ====
section
/-! SUPPORT. For each instruction: its opcode byte has a row in the map of R70, with its mnemonic and
the length of its encoding. -/

namespace Sys2Proof.Laws.EncodeShape

/-- The row of R70 found by an instruction's opcode byte is its own. -/
def Statement (i : Instr) : Prop :=
  (opcodeMap.find? fun r => r.byte == opcodeByte i).map (fun r => (r.mnemonic, r.form.length)) =
      some (mnemonicOf i, instrLength i) ∧
    (encode i).length = instrLength i

theorem zero : Statement .zero := ⟨rfl, rfl⟩

theorem hlt : Statement .hlt := ⟨rfl, rfl⟩

theorem ret : Statement .ret := ⟨rfl, rfl⟩

theorem push (a : Byte) : Statement (.push a) := ⟨rfl, rfl⟩

theorem pop (a : Byte) : Statement (.pop a) := ⟨rfl, rfl⟩

theorem prn (a : Byte) : Statement (.prn a) := ⟨rfl, rfl⟩

theorem call (a : Byte) : Statement (.call a) := ⟨rfl, rfl⟩

theorem jmp (a : Byte) : Statement (.jmp a) := ⟨rfl, rfl⟩

theorem jeq (a : Byte) : Statement (.jeq a) := ⟨rfl, rfl⟩

theorem jne (a : Byte) : Statement (.jne a) := ⟨rfl, rfl⟩

theorem not (a : Byte) : Statement (.not a) := ⟨rfl, rfl⟩

theorem ldi (a imm : Byte) : Statement (.ldi a imm) := ⟨rfl, rfl⟩

theorem add (a b : Byte) : Statement (.add a b) := ⟨rfl, rfl⟩

theorem sub (a b : Byte) : Statement (.sub a b) := ⟨rfl, rfl⟩

theorem mul (a b : Byte) : Statement (.mul a b) := ⟨rfl, rfl⟩

theorem div (a b : Byte) : Statement (.div a b) := ⟨rfl, rfl⟩

theorem cmp (a b : Byte) : Statement (.cmp a b) := ⟨rfl, rfl⟩

theorem and (a b : Byte) : Statement (.and a b) := ⟨rfl, rfl⟩

theorem or (a b : Byte) : Statement (.or a b) := ⟨rfl, rfl⟩

theorem xor (a b : Byte) : Statement (.xor a b) := ⟨rfl, rfl⟩

theorem shl (a b : Byte) : Statement (.shl a b) := ⟨rfl, rfl⟩

theorem shr (a b : Byte) : Statement (.shr a b) := ⟨rfl, rfl⟩

end Sys2Proof.Laws.EncodeShape
end

