-- ==== Sys2Proof/Laws/Step.lean ====
section
/-! SUPPORT. What one step and one run can do. -/

namespace Sys2Proof.Machine

theorem State.status_run_iff (s : State) :
    s.status = .run ↔ s.fault.code = .none ∧ s.running = true := by
  unfold State.status; split_ifs <;> simp_all

theorem State.status_faulted_iff (s : State) : s.status = .faulted ↔ s.fault.code ≠ .none := by
  unfold State.status; split_ifs <;> simp_all

theorem State.status_halted_iff (s : State) :
    s.status = .halted ↔ s.fault.code = .none ∧ s.running = false := by
  unfold State.status; split_ifs <;> simp_all

theorem step_idle {s : State} (h : s.status ≠ .run) : step s = .next s := by
  unfold step
  split
  · next hr => exact absurd hr h
  · rfl
  · rfl

theorem step_decoded {s : State} {i : Instr} (h : s.status = .run) (hi : s.fetched = .ok i) :
    step s = exec i s := by
  simp [step, h, hi]

theorem step_unknown {s : State} {r : DecodeReject} (h : s.status = .run)
    (hr : s.fetched = .error r) : step s = .next (s.takeFault .decodeError s.fetchOp 0) := by
  have := decode_error hr
  subst this
  simp [step, h, hr, raiseDecode, raiseFault]

/-- Everything a step can do: nothing outside RUN, DecodeError, or the decoded instruction. -/
theorem step_cases {s t : State} (h : step s = .next t) :
    (s.status ≠ .run ∧ t = s) ∨
      (s.status = .run ∧ (∃ r, s.fetched = .error r) ∧
        t = s.takeFault .decodeError s.fetchOp 0) ∨
      (s.status = .run ∧ ∃ i, s.fetched = .ok i ∧ opcodeByte i = s.fetchOp ∧
        exec i s = .next t) := by
  by_cases hs : s.status = .run
  · cases hf : s.fetched with
    | error r =>
      rw [step_unknown hs hf] at h
      exact .inr (.inl ⟨hs, ⟨r, rfl⟩, (Host.Outcome.next.inj h).symm⟩)
    | ok i =>
      rw [step_decoded hs hf] at h
      exact .inr (.inr ⟨hs, i, rfl, decode_opcode hf, h⟩)
  · rw [step_idle hs] at h
    exact .inl ⟨hs, (Host.Outcome.next.inj h).symm⟩

theorem step_answers (s : State) : ∃ t, step s = .next t := by
  by_cases hs : s.status = .run
  · cases hf : s.fetched with
    | error r => exact ⟨_, step_unknown hs hf⟩
    | ok i => rw [step_decoded hs hf]; exact exec_answers i s
  · exact ⟨s, step_idle hs⟩

@[simp] theorem runSteps_zero (s : State) : runSteps 0 s = .next s := rfl

theorem runSteps_succ_of_next (k : Nat) {s t : State} (h : step s = .next t) :
    runSteps (k + 1) s = runSteps k t := by
  have hc : Sys2Proof.core.step s = .next t := h
  simp only [runSteps, Host.Core.run, hc]
  rfl

/-- A run of `k + 1` steps is one step and a run of `k`. -/
theorem runSteps_succ {k : Nat} {s u : State} (h : runSteps (k + 1) s = .next u) :
    ∃ t, step s = .next t ∧ runSteps k t = .next u := by
  obtain ⟨t, ht⟩ := step_answers s
  exact ⟨t, ht, by rwa [runSteps_succ_of_next k ht] at h⟩

/-- What every step keeps and `s` has, every state of a run from `s` has. -/
theorem runSteps_keeps {P : State → Prop} (hstep : ∀ s t, P s → step s = .next t → P t) :
    ∀ {k : Nat} {s t : State}, P s → runSteps k s = .next t → P t
  | 0, s, t, hs, h => by cases h; exact hs
  | k + 1, s, t, hs, h => by
    obtain ⟨u, hu, hk⟩ := runSteps_succ h
    exact runSteps_keeps hstep (hstep s u hs hu) hk

end Sys2Proof.Machine
end

