-- ==== Sys2Proof/Tests/Slice0.lean ====
section
/-! SUPPORT. The model's own tests: ill-formed terms refused, decoding of words written out from R66 and
R70, one-step vectors of 95_test_vectors.md, and a witness for every statement that has hypotheses. -/

namespace Sys2Proof.Tests

open Sys2Proof Sys2Proof.Machine

/-- Code bytes placed from an address up, wrapping at the top. -/
def placed : Byte → List Byte → Memory → Memory
  | _, [], m => m
  | a, v :: vs, m => placed (a + 1) vs (memWrite m a v)

/-- The reset state with code at `pc` and some registers set. -/
def start (pc : Byte) (code : List Byte) (regs : List (Reg × Byte)) : State :=
  regs.foldl (fun s p => s.setReg p.1 p.2) { State.reset with pc := pc, mem := placed pc code [] }

/-- The state after a step, if there is one. -/
def after (s : State) : Option State :=
  match step s with
  | .next t => some t
  | _ => none

/-- A register after one step. -/
def regAfter (s : State) (r : Reg) : Option Byte := (after s).map (·.reg r)

/-- The PC after one step. -/
def pcAfter (s : State) : Option Byte := (after s).map (·.pc)

/-- The latch after one step. -/
def latchAfter (s : State) : Option FaultLatch := (after s).map (·.fault)

/-! Well-formedness: a term each check refuses -/

theorem test_wf_refuses_first_operand : wellFormed Config.defaults (.add 8 0) = false := by decide

theorem test_wf_refuses_second_operand : wellFormed Config.defaults (.add 0 255) = false := by
  decide

theorem test_wf_refuses_absent_and :
    wellFormed { Config.defaults with hasAnd := false } (.and 0 1) = false := by decide

theorem test_wf_accepts_any_immediate : wellFormed Config.defaults (.ldi 7 255) = true := by decide

/-! Decoding: a word for every constructor, from the formats of R66 and the bytes of R70 -/

theorem test_decode_f0 :
    decode Config.defaults 0b00000000 0xFF 0xFF = .ok .zero ∧
    decode Config.defaults 0b00000001 0xFF 0xFF = .ok .hlt ∧
    decode Config.defaults 0b00010001 0xFF 0xFF = .ok .ret := ⟨rfl, rfl, rfl⟩

theorem test_decode_fr :
    decode Config.defaults 0b01000101 0x01 0xFF = .ok (.push 1) ∧
    decode Config.defaults 0b01000110 0x02 0xFF = .ok (.pop 2) ∧
    decode Config.defaults 0b01000111 0x03 0xFF = .ok (.prn 3) ∧
    decode Config.defaults 0b01010000 0x04 0xFF = .ok (.call 4) ∧
    decode Config.defaults 0b01010100 0x05 0xFF = .ok (.jmp 5) ∧
    decode Config.defaults 0b01010101 0x06 0xFF = .ok (.jeq 6) ∧
    decode Config.defaults 0b01010110 0x07 0xFF = .ok (.jne 7) ∧
    decode Config.defaults 0b01101001 0x08 0xFF = .ok (.not 8) :=
  ⟨rfl, rfl, rfl, rfl, rfl, rfl, rfl, rfl⟩

theorem test_decode_fri : decode Config.defaults 0b10000010 0x02 0xC8 = .ok (.ldi 2 200) := rfl

theorem test_decode_frr :
    decode Config.defaults 0b10100000 0x00 0x01 = .ok (.add 0 1) ∧
    decode Config.defaults 0b10100001 0x02 0x03 = .ok (.sub 2 3) ∧
    decode Config.defaults 0b10100010 0x04 0x05 = .ok (.mul 4 5) ∧
    decode Config.defaults 0b10100011 0x06 0x07 = .ok (.div 6 7) ∧
    decode Config.defaults 0b10100111 0x01 0x00 = .ok (.cmp 1 0) ∧
    decode Config.defaults 0b10101000 0x03 0x02 = .ok (.and 3 2) ∧
    decode Config.defaults 0b10101010 0x05 0x04 = .ok (.or 5 4) ∧
    decode Config.defaults 0b10101011 0x07 0x06 = .ok (.xor 7 6) ∧
    decode Config.defaults 0b10101100 0x00 0xFF = .ok (.shl 0 255) ∧
    decode Config.defaults 0b10101101 0xFF 0x00 = .ok (.shr 255 0) :=
  ⟨rfl, rfl, rfl, rfl, rfl, rfl, rfl, rfl, rfl, rfl⟩

theorem test_decode_rejects_by_name :
    decode Config.defaults 0xA4 0 0 = .error (.unknownOpcode 0xA4) := rfl

/-- `LDI R2, 200` (R78), its bytes counted up from bit 0 of the table word. -/
theorem test_decode_table_word : decodeTableWord 24 0xC80282 = some (.ldi 2 200) := by decide

theorem test_fetch_word_runs : regAfter (State.reset.withFetchWord 24 0xC80282) .r2 = some 200 := by
  decide

/-! One-step vectors of 95_test_vectors.md; the id of each is in its name -/

theorem test_VA1_add : regAfter (start 0 [0xA0, 0, 1] [(.r0, 0xFA), (.r1, 0x0A)]) .r0 = some 0x04 ∧
    pcAfter (start 0 [0xA0, 0, 1] [(.r0, 0xFA), (.r1, 0x0A)]) = some 0x03 := by decide

theorem test_VA4_add_same : regAfter (start 0 [0xA0, 0, 0] [(.r0, 0x64)]) .r0 = some 0xC8 := by decide

theorem test_VS1_sub : regAfter (start 0 [0xA1, 0, 1] [(.r0, 3), (.r1, 5)]) .r0 = some 0xFE := by
  decide

theorem test_VM3_mul : regAfter (start 0 [0xA2, 0, 1] [(.r0, 0xFF), (.r1, 0xFF)]) .r0 = some 1 := by
  decide

theorem test_VD1_div : regAfter (start 0x10 [0xA3, 0, 1] [(.r0, 0xC8), (.r1, 7)]) .r0 = some 0x1C ∧
    pcAfter (start 0x10 [0xA3, 0, 1] [(.r0, 0xC8), (.r1, 7)]) = some 0x13 := by decide

theorem test_VD5_div_by_zero : after (start 0x10 [0xA3, 0, 1] [(.r0, 5)]) =
    some { start 0x10 [0xA3, 0, 1] [(.r0, 5)] with fault := ⟨.divideByZero, 0x10, 0xA3, 0⟩ } := by
  decide

theorem test_VC1_cmp : (after (start 0 [0xA7, 0, 1] [(.r0, 5), (.r1, 9)])).map (·.fl) = some 4 := by
  decide

theorem test_VC4_cmp_unsigned :
    (after (start 0 [0xA7, 0, 1] [(.r0, 0x80), (.r1, 0x7F)])).map (·.fl) = some 2 := by decide

theorem test_VN1_and :
    regAfter (start 0 [0xA8, 0, 1] [(.r0, 0xCC), (.r1, 0xAA)]) .r0 = some 0x88 := by decide

theorem test_VN3_no_and :
    latchAfter { start 0x20 [0xA8, 0, 1] [] with params := { Config.defaults with hasAnd := false } } =
      some ⟨.decodeError, 0x20, 0xA8, 0⟩ := by decide

theorem test_VO1_or :
    regAfter (start 0 [0xAA, 0, 1] [(.r0, 0xCC), (.r1, 0xAA)]) .r0 = some 0xEE := by decide

theorem test_VX1_xor :
    regAfter (start 0 [0xAB, 0, 1] [(.r0, 0xCC), (.r1, 0xAA)]) .r0 = some 0x66 := by decide

theorem test_VL1_shl : regAfter (start 0 [0xAC, 0, 1] [(.r0, 0x81), (.r1, 1)]) .r0 = some 2 := by
  decide

theorem test_VL5_shl_far : regAfter (start 0 [0xAC, 0, 1] [(.r0, 1), (.r1, 0xFF)]) .r0 = some 0 := by
  decide

theorem test_VR1_shr : regAfter (start 0 [0xAD, 0, 1] [(.r0, 0x81), (.r1, 1)]) .r0 = some 0x40 := by
  decide

theorem test_VR4_shr_as_source :
    regAfter { start 0 [0xAD, 0, 1] [(.r0, 0x81), (.r1, 1)] with
      params := { Config.defaults with shrMode := .asSourceLeft } } .r0 = some 0x02 := by decide

theorem test_VT4_not : regAfter (start 0x30 [0x69, 0, 0xFF] [(.r0, 0xA5)]) .r0 = some 0x5A ∧
    pcAfter (start 0x30 [0x69, 0, 0xFF] [(.r0, 0xA5)]) = some 0x32 := by decide

theorem test_VI3_first_operand_first :
    latchAfter (start 0 [0xA0, 9, 0x0A] []) = some ⟨.invalidRegister, 0, 0xA0, 9⟩ := by decide

theorem test_VI4_register_before_zero :
    latchAfter (start 0 [0xA3, 8, 1] []) = some ⟨.invalidRegister, 0, 0xA3, 8⟩ := by decide

theorem test_VLD3_ldi_wraps : regAfter (start 0xFE [0x82, 3, 0x2A] []) .r3 = some 0x2A ∧
    pcAfter (start 0xFE [0x82, 3, 0x2A] []) = some 1 := by decide

theorem test_VI5_ldi_operand :
    latchAfter (start 0 [0x82, 8, 5] []) = some ⟨.invalidRegister, 0, 0x82, 8⟩ := by decide

theorem test_VP2_prn : (after { start 0 [0x47, 4] [(.r4, 0xFF)] with out := [12] }).map (·.out) =
    some [12, 255] := by decide

theorem test_VI7_prn_emits_nothing : (after (start 0 [0x47, 0x10] [])).map (·.out) = some [] := by
  decide

theorem test_VK3_push_sp : (after (start 0 [0x45, 7] [])).map (fun t => (t.sp, t.load 0xF3)) =
    some (0xF3, 0xF3) := by decide

theorem test_VK8_push_over_operand :
    (after (start 4 [0x45, 0] [(.r7, 6), (.r0, 1)])).map (fun t => (t.sp, t.load 5, t.pc)) =
      some (5, 1, 6) := by decide

theorem test_VK5_pop_wraps :
    (after { start 0 [0x46, 2] [(.r7, 0xFF)] with mem := placed 0 [0x46, 2] [(0xFF, 7)] }).map
      (fun t => (t.reg .r2, t.sp)) = some (7, 0) := by decide

theorem test_VK6_pop_sp :
    (after { start 0 [0x46, 7] [(.r7, 0xF3)] with mem := placed 0 [0x46, 7] [(0xF3, 0x20)] }).map
      (·.sp) = some 0x21 := by decide

theorem test_VC2_call_at_the_top :
    (after (start 0xFE [0x50, 1] [(.r1, 0x40)])).map (fun t => (t.load 0xF3, t.pc)) =
      some (0, 0x40) := by decide

theorem test_VC3_call_sp :
    (after (start 0x10 [0x50, 7] [])).map (fun t => (t.sp, t.load 0xF3, t.pc)) =
      some (0xF3, 0x12, 0xF3) := by decide

theorem test_VR3_ret_writes_no_register :
    (after { start 0x40 [0x11, 3] [(.r7, 0xF3)] with mem := placed 0x40 [0x11, 3] [(0xF3, 5)] }).map
      (fun t => (t.pc, t.sp, t.reg .r3)) = some (5, 0xF4, 0) := by decide

theorem test_VJM1_jmp : pcAfter (start 0 [0x54, 2] [(.r2, 0x20)]) = some 0x20 := by decide

theorem test_VJ1_jeq_taken :
    pcAfter { start 0x14 [0x55, 3] [(.r3, 0x0C)] with fl := 1 } = some 0x0C := by decide

theorem test_VJ7_jeq_not_taken_unchecked :
    pcAfter { start 0x14 [0x55, 9] [] with fl := 4 } = some 0x16 := by decide

theorem test_VJ4_jne_taken :
    pcAfter { start 0x14 [0x56, 3] [(.r3, 0x0C)] with fl := 2 } = some 0x0C := by decide

theorem test_VJ5_jne_not_taken : pcAfter { start 0x14 [0x56, 3] [] with fl := 1 } = some 0x16 := by
  decide

theorem test_VH2_hlt : (after (start 0xFF [0x01] [])).map (fun t => (t.pc, t.status)) =
    some (0, .halted) := by decide

theorem test_VZ1_zero : after (start 0x10 [0x00] []) = some (start 0x10 [0x00] []) := by decide

theorem test_VZ2_zero_hardened :
    latchAfter { start 0x10 [] [] with params := { Config.defaults with zeroOpcode := .fault } } =
      some ⟨.zeroSpin, 0x10, 0x00, 0⟩ := by decide

theorem test_VU2_unknown : latchAfter (start 7 [0xA4] []) = some ⟨.decodeError, 7, 0xA4, 0⟩ := by
  decide

/-! The host's side -/

/-- W10: the comment and the white space are dropped; a blank line loads nothing. -/
theorem test_W10_image_line : readImageLine "10000010  # LDI".toList = .byte 0x82 ∧
    readImageLine "   # only a comment".toList = .blank ∧
    readImageLine "1000001".toList = .bad := by decide

theorem test_asm_line : (readAsm "LDI R2, 0xC8  # a comment".toList).map encode =
    some [0x82, 0x02, 0xC8] := by decide

/-- Program P1 (W7) in the source's own one-line form. -/
theorem test_asm_program : (readAsmLines ["LDI R0,8 ; PRN R0 ; HLT".toList]).map assemble =
    some [0x82, 0x00, 0x08, 0x47, 0x00, 0x01] := by decide

/-- R56: a byte that an earlier run left beyond the image is 0x00 after the load. -/
theorem test_boot_clears_uncovered :
    (boot [0x01] { start 5 [0x45, 3] [] with running := false }).map
      (fun t => (t.load 0, t.load 5, t.load 6)) = some (0x01, 0x00, 0x00) := by decide

theorem test_reset_keeps_memory :
    (start 5 [0x01] [(.r0, 9)]).assertReset.mem = (start 5 [0x01] [(.r0, 9)]).mem := by decide

/-! Witnesses: for every statement with hypotheses, a state and operands that meet them together, and
for each clause a value at the edge of its range -/

/-- The reset state halted. -/
def haltedState : State := { State.reset with running := false }

/-- The reset state faulted. -/
def faultedState : State := { State.reset with fault := ⟨.decodeError, 0, 0, 0⟩ }

/-- CMP R0, R1 at 0 with unequal registers. -/
def cmpState : State := start 0 [0xA7, 0, 1] [(.r0, 1)]

/-- The build without AND. -/
def noAnd : Params := { Config.defaults with hasAnd := false }

/-- The hardened build. -/
def hardened : Params := { Config.defaults with zeroOpcode := .fault }

theorem witness_DecodeAfterEncode : inBuild Config.defaults (.and 255 8) = true ∧
    inBuild noAnd (.ldi 255 255) = true := by decide

theorem witness_DisassembleAfterAssemble :
    ∀ i ∈ [Instr.zero, .push 255, .ldi 0 255, .add 0 255], inBuild noAnd i = true := by decide

theorem witness_EncodeAfterDecode : decode noAnd 0xAD 0xFF 0x00 = .ok (.shr 255 0) := rfl

theorem witness_IllegalOpcodeBytes : isOpcode noAnd 0xA8 = false ∧
    isOpcode Config.defaults 0xA8 = true ∧ noAnd.hasAnd = false ∧
    (start 0 [0xA4] []).status = .run ∧
    ∀ b1 b2 i, decode (start 0 [0xA4] []).params
      (memRead (start 0 [0xA4] []).mem (start 0 [0xA4] []).pc) b1 b2 ≠ .ok i :=
  ⟨rfl, rfl, rfl, rfl, fun _ _ _ h => by cases h⟩

theorem witness_BytesOutsideTheInstruction :
    (decode Config.defaults 0x11 0 0 = .ok .ret ∧ instrLength .ret = 1) ∧
    (decode Config.defaults 0x45 7 0 = .ok (.push 7) ∧ instrLength (.push 7) = 2) :=
  ⟨⟨rfl, rfl⟩, ⟨rfl, rfl⟩⟩

theorem witness_StepRunsTheDecodedInstruction :
    (cmpState.status = .run ∧ decode cmpState.params (memRead cmpState.mem cmpState.pc)
      (memRead cmpState.mem (cmpState.pc + 1)) (memRead cmpState.mem (cmpState.pc + 2)) =
        .ok (.cmp 0 1)) ∧
    ((start 0xFF [0xFF] []).status = .run ∧
      decode Config.defaults (memRead (start 0xFF [0xFF] []).mem 0xFF)
        (memRead (start 0xFF [0xFF] []).mem 0) (memRead (start 0xFF [0xFF] []).mem 1) =
          .error (.unknownOpcode 0xFF)) ∧
    haltedState.status ≠ .run ∧ faultedState.status ≠ .run :=
  ⟨⟨rfl, rfl⟩, ⟨rfl, rfl⟩, by decide, by decide⟩

theorem witness_UnknownOpcodeFaults : (start 0 [0xFF] []).status = .run ∧
    isOpcode (start 0 [0xFF] []).params
      (memRead (start 0 [0xFF] []).mem (start 0 [0xFF] []).pc) = false := by decide

theorem witness_EndedRunsStayEnded : haltedState.status ≠ .run ∧
    blockMove .grantStep haltedState = .next haltedState ∧
    blockMove (.assertReset [(0, 1)]) faultedState =
      .next { faultedState.assertReset with mem := [(0, 1)] } :=
  ⟨by decide, rfl, rfl⟩

/-- The edges of the register checks: 8 and 255 fail, 7 passes. -/
theorem witness_operand_edges : 7 < (8 : Byte).toNat ∧ 7 < (255 : Byte).toNat ∧
    (7 : Byte).toNat ≤ 7 ∧ (0 : Byte).toNat ≤ 7 := by decide

theorem witness_ShiftResults : State.reset.params.shrMode = .right ∧
    ({ State.reset with params := ⟨true, .asSourceLeft, .spin⟩ } : State).params.shrMode =
      .asSourceLeft ∧
    8 ≤ ((start 0 [] [(.r1, 8)]).x.get .r1).toNat ∧
    8 ≤ ((start 0 [] [(.r1, 255)]).x.get .r1).toNat := by decide

theorem witness_DivideResult : (start 0 [] [(.r1, 1)]).x.get .r1 ≠ 0 ∧
    State.reset.x.get .r1 = 0 := by decide

theorem witness_CompareSetsFlags :
    (State.reset.x.get .r0).toNat = (State.reset.x.get .r1).toNat ∧
    (cmpState.x.get .r0).toNat > (cmpState.x.get .r1).toNat ∧
    (cmpState.x.get .r1).toNat < (cmpState.x.get .r0).toNat := by decide

theorem witness_PrintAppends : (start 0 [0x47, 7] []).status = .run ∧
    (start 0 [0x47, 7] []).fetched = .ok (.prn Reg.r7.byte) := ⟨rfl, rfl⟩

theorem witness_PopLoads : Reg.r0 ≠ Reg.r7 := by decide

theorem witness_ConditionalJumps :
    ({ State.reset with fl := 0x01 } : State).fl.getLsbD 0 = true ∧
    ({ State.reset with fl := 0x04 } : State).fl.getLsbD 0 = false ∧
    State.reset.fl.getLsbD 0 = false ∧ 7 < (8 : Byte).toNat := by decide

theorem witness_ZeroSpinsOrFaults : State.reset.params.zeroOpcode = .spin ∧
    ({ State.reset with params := hardened } : State).params.zeroOpcode = .fault ∧
    State.reset.status = .run ∧ memRead State.reset.mem State.reset.pc = 0x00 := by decide

theorem witness_HaltEndsTheRun : State.reset.status = .run ∧
    exec .hlt State.reset = .next { State.reset with running := false, pc := 1 } := ⟨rfl, rfl⟩

theorem witness_MemoryWriteSetsOneCell : Memory.wf [(0, 1), (255, 2)] = true := by decide

theorem witness_EqualReads : Memory.wf (memWrite [] 0xFF 1) = true ∧ Memory.wf [(255, 1)] = true ∧
    ∀ a, memRead (memWrite [] 0xFF 1) a = memRead [(255, 1)] a := by decide

theorem witness_FetchWraps : (start 0xFE [] []).pc = 0xFE ∧ (start 0xFF [] []).pc = 0xFF := by decide

theorem witness_RegisterFormsFrame : isRegisterForm (.ldi 0 9) = true ∧
    exec (.ldi 0 9) State.reset =
      .next { State.reset with x := State.reset.x.set .r0 9, pc := 3 } ∧
    isRegisterForm (.div 0 1) = true ∧
    exec (.div 0 1) State.reset =
      .next { State.reset with fault := ⟨.divideByZero, 0, 0xA3, 0⟩ } := ⟨rfl, rfl, rfl, rfl⟩

theorem witness_NonWritingFormsFrame : writesNeither (.cmp 0 1) = true ∧
    exec (.cmp 0 1) State.reset = .next { State.reset with fl := 1, pc := 3 } ∧
    writesNeither (.prn 7) = true ∧
    exec (.prn 7) State.reset = .next { State.reset with out := [0xF4], pc := 2 } ∧
    writesNeither .hlt = true ∧
    exec .hlt State.reset = .next { State.reset with running := false, pc := 1 } :=
  ⟨rfl, rfl, rfl, rfl, rfl, rfl⟩

theorem witness_StoringFormsFrame :
    exec (.push 7) State.reset = .next { State.reset with
      x := State.reset.x.set .r7 0xF3, mem := [(0xF3, 0xF3)], pc := 2 } ∧
    storeAddress (.push 7) State.reset = some 0xF3 ∧
    storeAddress (.call 8) State.reset = none := ⟨rfl, rfl, rfl⟩

theorem witness_PoppingFormsFrame :
    exec .ret State.reset = .next { State.reset with
      x := State.reset.x.set .r7 0xF5, pc := 0 } ∧
    exec (.pop 0) State.reset = .next { State.reset with
      x := State.reset.x.set .r7 0xF5, pc := 2 } := ⟨rfl, rfl⟩

theorem witness_FlagsWrittenByCompare :
    (∃ t, step cmpState = .next t ∧ t.fl ≠ cmpState.fl) ∧
    (0x03 : Byte).getLsbD 0 = (0x01 : Byte).getLsbD 0 ∧
    (∃ t, exec (.jeq 0) { State.reset with fl := 1 } = .next t) ∧
    ∀ a, Instr.add 0 1 ≠ .jeq a ∧ Instr.add 0 1 ≠ .jne a :=
  ⟨⟨_, rfl, by decide⟩, by decide, ⟨_, rfl⟩, by simp⟩

theorem witness_FlagsAfterAnyRun : ∃ t v,
    runSteps 1 { State.reset with mem := [(0, 0xA7), (2, 7)], params := noAnd } = .next t ∧
    runSteps 0 { State.reset with mem := [(0, 0xA7), (2, 7)], params := noAnd } =
      .next { State.reset with mem := [(0, 0xA7), (2, 7)], params := noAnd } ∧
    ({ State.reset with mem := [(0, 0xA7), (2, 7)], params := noAnd } : State).status = .run ∧
    ({ State.reset with mem := [(0, 0xA7), (2, 7)], params := noAnd } : State).fetched =
      .ok (.cmp 0 7) ∧
    step { State.reset with mem := [(0, 0xA7), (2, 7)], params := noAnd } = .next v ∧
    v.status = .run ∧ 0 < 1 := ⟨_, _, rfl, rfl, rfl, rfl, rfl, rfl, by decide⟩

theorem witness_RunningClearedOnlyByHalt :
    (∃ t, step (start 0 [0x01] []) = .next t ∧ (start 0 [0x01] []).running = true ∧
      t.running = false) ∧
    step haltedState = .next haltedState ∧ haltedState.running = false :=
  ⟨⟨_, rfl, rfl, rfl⟩, rfl, rfl⟩

theorem witness_FaultsArePrecise : ∃ t, (start 0 [0xA0, 0, 8] []).status = .run ∧
    step (start 0 [0xA0, 0, 8] []) = .next t ∧ t.status = .faulted := ⟨_, rfl, rfl, rfl⟩

/-- A state in RUN for each place of the priority, and one that raises no fault. -/
theorem witness_FaultPriority :
    expectedFault (start 0 [0xA4, 9, 9] []) = some (.decodeError, 0) ∧
    expectedFault { State.reset with params := hardened } = some (.zeroSpin, 0) ∧
    expectedFault (start 0 [0xA3, 8, 9] []) = some (.invalidRegister, 8) ∧
    expectedFault (start 0 [0xA3, 7, 8] []) = some (.invalidRegister, 8) ∧
    expectedFault (start 0 [0xA3, 7, 6] []) = some (.divideByZero, 0) ∧
    expectedFault (start 0 [0xA3, 6, 7] []) = none ∧
    (start 0 [0xA3, 6, 7] []).status = .run := by decide

theorem witness_WellFormedFaults : wellFormed State.reset.params (.div 7 0) = true ∧
    (∃ t, exec (.div 7 0) State.reset = .next t) ∧ wellFormed hardened .zero = true ∧
    (∃ t, exec .zero { State.reset with params := hardened } = .next t) :=
  ⟨by decide, ⟨_, rfl⟩, by decide, ⟨_, rfl⟩⟩

/-- For the statements whose one hypothesis is that `exec` answers a state: it does, for a form that
completes and for one that takes a fault. -/
theorem witness_exec_answers : (∃ t, exec (.call 1) State.reset = .next t ∧ t.fault = State.reset.fault) ∧
    (∃ t, exec (.call 8) State.reset = .next t ∧ t.fault ≠ State.reset.fault) ∧
    Instr.call 1 = .call Reg.r1.byte ∧ ∀ a, Instr.pop 0 ≠ .call a :=
  ⟨⟨_, rfl, rfl⟩, ⟨_, rfl, by decide⟩, rfl, by simp⟩

theorem witness_OutputIsOnlyAppended : (∃ t, step (start 0 [0x47, 7] []) = .next t ∧
      t.out = [0xF4]) ∧ ∃ t, runSteps 1 (start 0 [0x47, 7] []) = .next t :=
  ⟨⟨_, rfl, rfl⟩, ⟨_, rfl⟩⟩

theorem witness_OnlyPushAndCallWrite : ∃ t, step (start 0 [0x45, 7] []) = .next t ∧
    t.mem ≠ (start 0 [0x45, 7] []).mem ∧ (0xF4 : Byte) ≠ (start 0 [0x45, 7] []).x.get .r7 - 1 :=
  ⟨_, rfl, by decide, by decide⟩

theorem witness_NextPc : ∃ t, exec (.jne 7) State.reset = .next t ∧
    State.reset.fault.code = .none ∧ t.fault.code = .none := ⟨_, rfl, rfl, rfl⟩

theorem witness_PushThenPop : ∃ t u v, Memory.wf State.reset.mem = true ∧
    exec (.push Reg.r0.byte) State.reset = .next t ∧ exec (.pop Reg.r6.byte) t = .next u ∧
    exec (.pop Reg.r7.byte) t = .next v := ⟨_, _, _, rfl, rfl, rfl, rfl⟩

/-- CALL R1 at 0xFE, whose return address is 0, to a RET at 0x40. -/
def callState : State := { start 0xFE [] [(.r1, 0x40)] with mem := [(0x40, 0x11), (0xFE, 0x50), (0xFF, 1)] }

theorem witness_CallThenReturn : ∃ t u, Memory.wf callState.mem = true ∧ callState.status = .run ∧
    callState.fetched = .ok (.call 1) ∧ step callState = .next t ∧ t.status = .run ∧
    memRead t.mem t.pc = 0x11 ∧ step t = .next u :=
  ⟨_, _, rfl, rfl, rfl, rfl, rfl, rfl, rfl⟩

theorem witness_CompareThenJump :
    (∃ t, exec (.cmp Reg.r0.byte Reg.r7.byte) State.reset = .next t) ∧
    ∃ t, exec (.cmp Reg.r0.byte Reg.r1.byte) State.reset = .next t := ⟨⟨_, rfl⟩, ⟨_, rfl⟩⟩

theorem witness_StepKeepsTheInvariant : cmpState.Inv ∧ (∃ t, step cmpState = .next t) ∧
    (start 0xFF [0xFF] []).Inv ∧ (∃ t, step (start 0xFF [0xFF] []) = .next t) :=
  ⟨by decide, ⟨_, rfl⟩, by decide, ⟨_, rfl⟩⟩

theorem witness_BlockStateMachine :
    (∃ t, blockMove .grantStep (start 0 [0x01] []) = .next t ∧
      (start 0 [0x01] []).status = .run ∧ t.status = .halted) ∧
    (∃ t, blockMove .grantStep (start 0 [0x02] []) = .next t ∧ t.status = .faulted) ∧
    (∃ t, blockMove (.assertReset []) haltedState = .next t) ∧
    blockMove .wait faultedState = .next faultedState :=
  ⟨⟨_, rfl, rfl, rfl⟩, ⟨_, rfl, rfl⟩, ⟨_, rfl⟩, rfl⟩

theorem witness_ImagePlacement : 256 < (List.replicate 257 (0 : Byte)).length ∧
    (List.replicate 256 (0 : Byte)).length ≤ 256 ∧ ([] : List Byte).length ≤ 256 :=
  ⟨by rw [List.length_replicate]; decide, by rw [List.length_replicate], by decide⟩

theorem witness_StatusAndExitStatus : (State.reset.running = true ∧ State.reset.fault.code = .none) ∧
    (haltedState.running = false ∧ haltedState.fault.code = .none) ∧
    faultedState.fault.code ≠ .none := by decide

theorem witness_ResetValues : haltedState.assertReset = State.reset ∧
    ∃ t, step State.reset = .next t := ⟨rfl, _, rfl⟩

theorem witness_BootStartsTheImage : Memory.wf callState.mem = true ∧ callState.mem ≠ [] ∧
    (boot [0x01] callState).isSome = true ∧ ([0x01] : List Byte).length ≤ 256 := by decide

theorem witness_BlockOutputs : (∀ ws, HostMove.grantStep ≠ .assertReset ws) ∧
    (start 0 [0x47, 7] []).status = .run ∧
    (start 0 [0x47, 7] []).fetched = .ok (.prn Reg.r7.byte) ∧
    (signals .grantStep (start 0 [0x47, 7] [])).outData = some 0xF4 :=
  ⟨(fun _ h => nomatch h), rfl, rfl, rfl⟩

end Sys2Proof.Tests
end

section
/-! PROOFS of the statements about the state: registers, FL, `running`, the latch, the PC, `out`, the
invariant of a step, and what the block shows of it. -/

namespace Sys2Proof.Machine

/-! ## The state's own rules -/

/-- R20: an operand byte's number picks the register it names. -/
@[simp] theorem numbered_byte (x : Regs) (r : Reg) : numbered x r.byte.toNat = x.get r := by
  cases r <;> rfl

/-- Settles O30: a write is read back in its own register and in no other, and the registers stand
in the file in the order of their numbers. -/
theorem registersAreIndependent : Obligations.RegistersAreIndependent := by
  unfold Obligations.RegistersAreIndependent
  intro x r q v
  refine ⟨?_, (numbered_byte x q).symm⟩
  split_ifs with h
  · rw [h, Regs.get_set_self]
  · exact Regs.get_set_other x v h

/-- R100: CMP always sets one of the three bits. -/
theorem compareFlags_mem (va vb : Byte) : compareFlags va vb ∈ [flagE, flagG, flagL] := by
  unfold compareFlags
  split_ifs <;> simp

theorem compareFlags_legal (va vb : Byte) : compareFlags va vb ∈ legalFlags := by
  have h : ∀ f ∈ [flagE, flagG, flagL], f ∈ legalFlags := by decide
  exact h _ (compareFlags_mem va vb)

theorem compareFlags_ne_zero (va vb : Byte) : compareFlags va vb ≠ 0 := by
  have h : ∀ f ∈ [flagE, flagG, flagL], f ≠ 0 := by decide
  exact h _ (compareFlags_mem va vb)

/-- The decoder's map and the plain list of R70's bytes name the same opcodes of a build. -/
theorem rowOf_isSome (p : Params) (op : Byte) : (rowOf p op).isSome = isOpcode p op := by
  by_cases h : op = 0xA8#8
  · subst h
    cases hp : p.hasAnd <;> simp [rowOf, isOpcode, opcodeMap, hp]
  · rw [Bool.eq_iff_iff, rowOf, if_neg (fun hn => h hn.1), List.find?_isSome]
    simp [opcodeMap, isOpcode, h, eq_comm (b := op)]

/-- R73: only a byte that is no opcode of the build is rejected. -/
theorem isOpcode_of_fetched_error {s : State} {r : DecodeReject} (h : s.fetched = .error r) :
    isOpcode s.params s.fetchOp = false := by
  rw [← rowOf_isSome]
  unfold State.fetched decode at h
  split at h
  · cases h
  · next hn => rw [hn]; rfl

/-! ## Some instructions run to their end -/

/-- R87 on the default build. -/
theorem exec_zero_spin {s : State} (h : s.params.zeroOpcode = .spin) : exec .zero s = .next s := by
  simp only [exec, execZero, h]

/-- R87 on the hardened build. -/
theorem exec_zero_fault {s : State} (h : s.params.zeroOpcode = .fault) :
    exec .zero s = .next (s.takeFault .zeroSpin (opcodeByte .zero) 0) := by
  simp only [exec, execZero, h, raiseFault]

theorem exec_prn (s : State) (r : Reg) : exec (.prn r.byte) s =
    .next { s with out := s.out ++ [s.x.get r], pc := s.pc + 2 } := by
  simp [exec, execPrn, withReg_byte, State.emit, State.setPc, State.reg]

theorem exec_cmp (s : State) (ra rb : Reg) : exec (.cmp ra.byte rb.byte) s =
    .next { s with fl := compareFlags (s.x.get ra) (s.x.get rb), pc := s.pc + 3 } := by
  simp [exec, execCmp, withTwoRegs, withReg_byte, State.setFl, State.setPc, State.reg]

theorem exec_call (s : State) (r : Reg) : exec (.call r.byte) s = .next { s with
    x := s.x.set .r7 (s.x.get .r7 - 1)
    mem := memWrite s.mem (s.x.get .r7 - 1) (s.pc + 2)
    pc := (s.x.set .r7 (s.x.get .r7 - 1)).get r } := by
  simp [exec, execCall, withReg_byte, State.pushByte, State.setReg, State.store, State.setPc,
    State.reg, State.sp]

/-! ## What one step can write -/

/-- Only PUSH and CALL store, and a store keeps memory canonical. -/
theorem Effect.wf_mem {i : Instr} {s t : State} (h : Effect i s t) (hm : Memory.wf s.mem = true) :
    Memory.wf t.mem = true := by
  cases i
  case push a | call a => obtain ⟨ra, -, rfl⟩ := h; exact wf_memWrite hm _ _
  all_goals rw [h.mem_of_not_storing (by simp)]; exact hm

/-- A step changes the latch alone, if anything, or has the effect of what is decoded in RUN. -/
theorem step_latch_or_effect {s t : State} (h : step s = .next t) :
    (∃ l, t = { s with fault := l }) ∨
      (s.status = .run ∧ ∃ i, s.fetched = .ok i ∧ Effect i s t) := by
  rcases step_cases h with ⟨-, rfl⟩ | ⟨-, -, rfl⟩ | ⟨hs, i, hi, -, hx⟩
  · exact .inl ⟨_, rfl⟩
  · exact .inl ⟨_, rfl⟩
  · rcases exec_cases hx with he | ⟨c, v, -, rfl⟩
    · exact .inr ⟨hs, i, hi, he⟩
    · exact .inl ⟨_, rfl⟩

/-- R29: FL is kept, or a CMP of two registers writes all of it. -/
theorem step_fl {s t : State} (h : step s = .next t) :
    t.fl = s.fl ∨ ∃ ra rb : Reg, s.fetched = .ok (.cmp ra.byte rb.byte) ∧
      t.fl = compareFlags (s.x.get ra) (s.x.get rb) := by
  rcases step_latch_or_effect h with ⟨l, rfl⟩ | ⟨-, i, hi, he⟩
  · exact .inl rfl
  · cases i
    case cmp a b =>
      obtain ⟨ra, rb, rfl, rfl, rfl⟩ := he
      exact .inr ⟨ra, rb, hi, rfl⟩
    all_goals exact .inl (he.fl_of_not_cmp (by simp))

/-- R30: every step keeps FL legal. -/
theorem step_keeps_legal_fl (s t : State) (hs : s.fl ∈ legalFlags) (h : step s = .next t) :
    t.fl ∈ legalFlags := by
  rcases step_fl h with hfl | ⟨ra, rb, -, hfl⟩ <;> rw [hfl]
  · exact hs
  · exact compareFlags_legal _ _

/-- No step clears FL. -/
theorem step_keeps_nonzero_fl (s t : State) (hs : s.fl ≠ 0) (h : step s = .next t) : t.fl ≠ 0 := by
  rcases step_fl h with hfl | ⟨ra, rb, -, hfl⟩ <;> rw [hfl]
  · exact hs
  · exact compareFlags_ne_zero _ _

/-- R36, R121: `out` is kept, or a PRN of a register, in RUN, appends its value. -/
theorem step_out {s t : State} (h : step s = .next t) : t.out = s.out ∨
    s.status = .run ∧ ∃ ra : Reg, s.fetched = .ok (.prn ra.byte) ∧
      t.out = s.out ++ [s.x.get ra] := by
  rcases step_latch_or_effect h with ⟨l, rfl⟩ | ⟨hs, i, hi, he⟩
  · exact .inl rfl
  · cases i
    case prn a =>
      obtain ⟨ra, rfl, rfl⟩ := he
      exact .inr ⟨hs, ra, hi, rfl⟩
    all_goals exact .inl (he.out_of_not_prn (by simp))

/-- R31: `running` is kept, or the step runs HLT. -/
theorem step_running {s t : State} (h : step s = .next t) :
    t.running = s.running ∨ s.fetched = .ok .hlt ∧ s.status = .run := by
  rcases step_latch_or_effect h with ⟨l, rfl⟩ | ⟨hs, i, hi, he⟩
  · exact .inl rfl
  · by_cases hh : i = .hlt
    · exact .inr ⟨hh ▸ hi, hs⟩
    · exact .inl (he.running_of_not_hlt hh)

/-- A run continued from where its first `j` steps end. -/
theorem runSteps_after {j n : Nat} {s u t : State} (hj : runSteps j s = .next u)
    (h : runSteps (j + n) s = .next t) : runSteps n u = .next t := by
  induction j generalizing s with
  | zero => cases hj; simpa using h
  | succ j ih =>
    obtain ⟨v, hv, hvu⟩ := runSteps_succ hj
    rw [Nat.add_right_comm, runSteps_succ_of_next _ hv] at h
    exact ih hvu h

/-! ## The invariant -/

/-- A latch that holds no fault asks nothing but memory and FL of the invariant. -/
theorem State.Inv.of_clear {s : State} (hm : Memory.wf s.mem = true) (hfl : s.fl ∈ legalFlags)
    (hf : s.fault = FaultLatch.clear) : s.Inv := by
  simp [State.Inv, hm, hfl, hf, FaultLatch.clear]

/-- R89: the latch of DecodeError tells the truth. -/
theorem State.Inv.takeFault_decodeError {s : State} (hs : s.Inv) (hr : s.running = true)
    (ho : isOpcode s.params s.fetchOp = false) : (s.takeFault .decodeError s.fetchOp 0).Inv := by
  obtain ⟨hm, hfl, -⟩ := hs
  refine ⟨hm, hfl, by simp, fun _ => ⟨hr, rfl, rfl⟩, fun _ => ⟨ho, rfl⟩, ?_, ?_, ?_⟩ <;> simp

/-- R140: the latch of a fault that an instruction takes tells the truth. -/
theorem State.Inv.takeFault_own {s : State} {i : Instr} {c : FaultCode} {v : Byte} (hs : s.Inv)
    (hr : s.running = true) (hop : opcodeByte i = s.fetchOp) (ho : OwnFault i s c v) :
    (s.takeFault c (opcodeByte i) v).Inv := by
  obtain ⟨hm, hfl, -⟩ := hs
  have hlatch : s.running = true ∧ s.pc = s.pc ∧ opcodeByte i = memRead s.mem s.pc :=
    ⟨hr, rfl, hop⟩
  rcases ho with ⟨rfl, hv, -⟩ | ⟨rfl, rfl, rfl, hz⟩ | ⟨rfl, rfl, ra, rb, rfl, -⟩
  · exact ⟨hm, hfl, by simp, fun _ => hlatch, by simp, by simp, fun _ => hv, by simp⟩
  · exact ⟨hm, hfl, by simp, fun _ => hlatch, by simp, by simp, by simp, fun _ => ⟨hz, rfl, rfl⟩⟩
  · exact ⟨hm, hfl, by simp, fun _ => hlatch, by simp, fun _ => ⟨rfl, rfl⟩, by simp, by simp⟩

/-- Settles O55: a step outside RUN changes nothing; in RUN the latch is clear before it, so an
effect leaves it clear and a fault writes what is true of the state it leaves. -/
theorem stepKeepsTheInvariant : Obligations.StepKeepsTheInvariant := by
  unfold Obligations.StepKeepsTheInvariant
  intro s t hs h
  rcases step_cases h with ⟨-, rfl⟩ | ⟨hrun, ⟨r, hr⟩, rfl⟩ | ⟨hrun, i, -, hop, hx⟩
  · exact hs
  · exact hs.takeFault_decodeError (s.status_run_iff.1 hrun).2 (isOpcode_of_fetched_error hr)
  · obtain ⟨hcode, hrunning⟩ := s.status_run_iff.1 hrun
    rcases exec_cases hx with he | ⟨c, v, ho, rfl⟩
    · obtain ⟨hm, hfl, hclear, -⟩ := hs
      have hclean : t.fault = FaultLatch.clear := he.fault_params.1.trans (hclear hcode)
      exact .of_clear (he.wf_mem hm) (step_keeps_legal_fl s t hfl h) hclean
    · exact hs.takeFault_own hrunning hop ho

/-! ## FL, `running` and `out` along steps and runs -/

/-- A CMP that raises no fault leaves a bit of FL set. -/
theorem fl_ne_zero_of_cmp {u v : State} {a b : Byte} (hu : u.status = .run)
    (hi : u.fetched = .ok (.cmp a b)) (h : step u = .next v) (hv : v.status = .run) : v.fl ≠ 0 := by
  rw [step_decoded hu hi] at h
  rcases exec_cases h with ⟨ra, rb, -, -, rfl⟩ | ⟨c, w, ho, rfl⟩
  · exact compareFlags_ne_zero _ _
  · exact absurd ((State.status_run_iff _).1 hv).1 ho.code_ne_none

/-- Settles O38: FL is legal at reset and every step keeps it so; a CMP makes it nonzero and no step
after it clears it. -/
theorem flagsAfterAnyRun : Obligations.FlagsAfterAnyRun := by
  unfold Obligations.FlagsAfterAnyRun
  intro m p k t h
  have hreset : State.reset.fl ∈ legalFlags := by decide
  refine ⟨runSteps_keeps (s := { State.reset with mem := m, params := p }) step_keeps_legal_fl
    hreset h, ?_⟩
  intro j u v a b hjk hj hu hi hv hvrun
  obtain ⟨n, rfl⟩ := Nat.exists_eq_add_of_lt hjk
  have hun : runSteps (n + 1) u = .next t := runSteps_after hj h
  rw [runSteps_succ_of_next n hv] at hun
  exact runSteps_keeps step_keeps_nonzero_fl (fl_ne_zero_of_cmp hu hi hv hvrun) hun

/-- Settles O39: only HLT writes `running`, and outside RUN a step does nothing. -/
theorem runningClearedOnlyByHalt : Obligations.RunningClearedOnlyByHalt := by
  unfold Obligations.RunningClearedOnlyByHalt
  refine ⟨rfl, fun s => rfl, fun s t h => ⟨fun hs ht => ?_, fun hs => ?_⟩⟩
  · rcases step_running h with hkept | hhlt
    · rw [hs, ht] at hkept; cases hkept
    · exact hhlt
  · have hnot : s.status ≠ .run := fun hr => by
      rw [(s.status_run_iff.1 hr).2] at hs; cases hs
    rw [step_idle hnot] at h
    exact (Host.Outcome.next.inj h).symm

/-- What `out` begins with it still begins with after a step. -/
theorem step_keeps_out_start {out : List Byte} (s t : State) (hs : out <+: s.out)
    (h : step s = .next t) : out <+: t.out := by
  rcases step_out h with hout | ⟨-, ra, -, hout⟩ <;> rw [hout]
  · exact hs
  · exact hs.trans (List.prefix_append _ _)

/-- Settles O45: what one step does to `out` is `step_out`; its beginning is kept along a run. -/
theorem outputIsOnlyAppended : Obligations.OutputIsOnlyAppended := by
  unfold Obligations.OutputIsOnlyAppended
  refine ⟨fun s t h => (step_out h).imp_right And.right, fun k s t h => ?_⟩
  obtain ⟨new, hnew⟩ := runSteps_keeps step_keeps_out_start (List.prefix_refl s.out) h
  exact ⟨new, hnew.symm⟩

/-! ## The PC -/

/-- Settles O47: a next state with a clear latch is an effect, and each instruction's effect says
where the PC goes. -/
theorem nextPcOfEachInstruction : Obligations.NextPcOfEachInstruction := by
  unfold Obligations.NextPcOfEachInstruction
  intro i s t h _ ht
  rcases exec_cases h with he | ⟨c, v, ho, rfl⟩
  · cases i
    case zero | hlt | ret => obtain rfl := he; rfl
    case call a | jmp a => obtain ⟨ra, rfl, rfl⟩ := he; simp
    case jeq a =>
      rcases he with ⟨hb, ra, rfl, rfl⟩ | ⟨hb, rfl⟩
      · simp only [hb, if_true, numbered_byte]
      · simp only [hb, Bool.false_eq_true, if_false]
    case jne a =>
      rcases he with ⟨hb, ra, rfl, rfl⟩ | ⟨hb, rfl⟩
      · simp only [hb, Bool.false_eq_true, if_false, numbered_byte]
      · simp only [hb, if_true]
    case div a b => obtain ⟨ra, rb, -, -, -, rfl⟩ := he; rfl
    case push a | pop a | prn a | not a | ldi a imm => obtain ⟨ra, -, rfl⟩ := he; rfl
    all_goals obtain ⟨ra, rb, -, -, rfl⟩ := he; rfl
  · exact absurd ht ho.code_ne_none

/-! ## The block's outputs and the status -/

/-- R37, R121: a granted step shows a byte exactly when it is a PRN of a register that holds it. -/
theorem emitted_eq_some_iff (s : State) (v : Byte) : emitted s = some v ↔
    s.status = .run ∧ ∃ ra : Reg, s.fetched = .ok (.prn ra.byte) ∧ v = s.x.get ra := by
  obtain ⟨t, ht⟩ := step_answers s
  have hemit : emitted s = t.out[s.out.length]? := by simp only [emitted, ht]
  rw [hemit]
  constructor
  · intro h
    rcases step_out ht with hout | ⟨hs, ra, hi, hout⟩ <;> rw [hout] at h
    · simp at h
    · exact ⟨hs, ra, hi, by simpa using h.symm⟩
  · rintro ⟨hs, ra, hi, rfl⟩
    rw [step_decoded hs hi, exec_prn] at ht
    obtain rfl := Host.Outcome.next.inj ht
    simp

/-- Outside `rst` the outputs show the state at the start of the move. -/
theorem shown_of_not_assertReset {mv : HostMove} (h : ∀ ws, mv ≠ .assertReset ws) (s : State) :
    shown mv s = s := by
  cases mv with
  | assertReset ws => exact absurd rfl (h ws)
  | grantStep => rfl
  | wait => rfl

/-- Settles O59: the outputs are read off the state shown, and the emitted byte is
`emitted_eq_some_iff`. -/
theorem blockOutputs : Obligations.BlockOutputs := by
  unfold Obligations.BlockOutputs
  refine ⟨fun ws s => rfl, fun mv s hmv => ?_, fun s => rfl, emitted_eq_some_iff⟩
  simp only [signals, shown_of_not_assertReset hmv, decide_eq_true_iff, and_true]
  refine ⟨s.status_halted_iff.trans and_comm, s.status_faulted_iff, ?_⟩
  cases s.fault.code <;> rfl

/-- Settles O58: the status of each of the three cases of R33 picks the arm of `exitStatus` and
`diagnostic`. -/
theorem statusAndExitStatus : Obligations.StatusAndExitStatus := by
  unfold Obligations.StatusAndExitStatus
  refine fun s => ⟨fun hr hc => ?_, fun hr hc => ?_, fun hc => ?_⟩
  · have h : s.status = .run := s.status_run_iff.2 ⟨hc, hr⟩
    simp [exitStatus, h]
  · have h : s.status = .halted := s.status_halted_iff.2 ⟨hc, hr⟩
    simp [exitStatus, h]
  · have h : s.status = .faulted := s.status_faulted_iff.2 hc
    simp [exitStatus, diagnostic, h]

/-! ## What an instruction reads: one instruction run from two states -/

/-- Both runs answer, with next states in the relation `R`. -/
def Both (R : State → State → Prop) (o o' : Result) : Prop :=
  ∃ t u, o = .next t ∧ o' = .next u ∧ R t u

namespace Both

variable {R : State → State → Prop} {s s' : State} {i : Instr}

theorem ofWithReg {v : Byte} {go go' : Reg → Result} (hgo : ∀ r, Both R (go r) (go' r))
    (hfault : R (s.takeFault .invalidRegister (opcodeByte i) v)
      (s'.takeFault .invalidRegister (opcodeByte i) v)) :
    Both R (withReg i v s go) (withReg i v s' go') := by
  unfold withReg
  cases regOf v with
  | some r => exact hgo r
  | none => exact ⟨_, _, rfl, rfl, hfault⟩

theorem ofIte {c c' : Prop} [Decidable c] [Decidable c'] {o₁ o₁' o₂ o₂' : Result} (hc : c ↔ c')
    (h₁ : Both R o₁ o₁') (h₂ : Both R o₂ o₂') :
    Both R (if c then o₁ else o₂) (if c' then o₁' else o₂') := by
  by_cases h : c
  · rwa [if_pos h, if_pos (hc.1 h)]
  · rwa [if_neg h, if_neg fun h' => h (hc.2 h')]

end Both

/-- `s` with another PC, FL and latch. -/
def State.withControl (s : State) (q f : Byte) (l : FaultLatch) : State :=
  { s with pc := q, fl := f, fault := l }

/-- `t` and `u` are next states of `i` run from `s` and from `s.withControl q f l`: the PC shows
only in the PC, in what CALL stores and in a fault's latch; FL and the latch show only in
themselves. -/
structure Rerun (i : Instr) (s : State) (q f : Byte) (l : FaultLatch) (t u : State) : Prop where
  params : u.params = t.params
  x : u.x = t.x
  running : u.running = t.running
  out : u.out = t.out
  mem : (∀ a, i ≠ .call a) ∨ q = s.pc → u.mem = t.mem
  pc : q = s.pc → u.pc = t.pc
  fl : u.fl = t.fl ∨ u.fl = f ∧ t.fl = s.fl
  fault : (u.fault = l ∧ t.fault = s.fault) ∨ (q = s.pc → u.fault = t.fault)

namespace Rerun

variable {i : Instr} {s t u : State} {q f : Byte} {l : FaultLatch}

theorem ofTakeFault {c : FaultCode} {o v : Byte} :
    Rerun i s q f l (s.takeFault c o v) ((s.withControl q f l).takeFault c o v) :=
  ⟨rfl, rfl, rfl, rfl, fun _ => rfl, id, .inr ⟨rfl, rfl⟩, .inr fun h => by subst h; rfl⟩

/-- An instruction that writes neither FL nor the latch, and reads the PC only to move it. -/
theorem ofKept {p : Byte} (hfl : t.fl = s.fl) (hfault : t.fault = s.fault)
    (hp : q = s.pc → p = t.pc) : Rerun i s q f l t (t.withControl p f l) :=
  ⟨rfl, rfl, rfl, rfl, fun _ => rfl, hp, .inr ⟨rfl, hfl⟩, .inl ⟨rfl, hfault⟩⟩

theorem fl_eq (h : Rerun i s q s.fl l t u) : u.fl = t.fl :=
  h.fl.elim id fun hk => hk.1.trans hk.2.symm

theorem fault_eq (h : Rerun i s s.pc f s.fault t u) : u.fault = t.fault :=
  h.fault.elim (fun hk => hk.1.trans hk.2.symm) fun hk => hk rfl

theorem eq_of_same_pc (h : Rerun i s s.pc f l t u) :
    u = { t with fl := u.fl, fault := u.fault } := by
  obtain ⟨hparams, hx, hrunning, hout, hmem, hpc, -, -⟩ := h
  cases t
  cases u
  rw [State.mk.injEq]
  exact ⟨hparams, hmem (.inr rfl), hx, hpc rfl, rfl, hrunning, rfl, hout⟩

/-- Two runs that end in states which keep FL and the latch and differ in the PC alone. -/
theorem both_kept {p : Byte} (hfl : t.fl = s.fl := by rfl) (hfault : t.fault = s.fault := by rfl)
    (hp : q = s.pc → p = t.pc := by rintro rfl; rfl) :
    Both (Rerun i s q f l) (.next t) (.next (t.withControl p f l)) :=
  ⟨_, _, rfl, rfl, .ofKept hfl hfault hp⟩

theorem both_aluFrame {a b : Byte} {g : Byte → Byte → Byte} :
    Both (Rerun i s q f l) (aluFrame i a b g s) (aluFrame i a b g (s.withControl q f l)) :=
  .ofWithReg (fun _ => .ofWithReg (fun _ => both_kept) .ofTakeFault) .ofTakeFault

theorem both_jumpTo {a : Byte} :
    Both (Rerun i s q f l) (jumpTo i a s) (jumpTo i a (s.withControl q f l)) :=
  .ofWithReg (fun _ => both_kept) .ofTakeFault

end Rerun

open Rerun in
/-- Every instruction reads the PC, FL and the latch only as `Rerun` says: FL by bit 0 alone, and
that only in JEQ and JNE (R27, R29, R32). -/
theorem exec_rerun (i : Instr) (s : State) (q f : Byte) (l : FaultLatch)
    (hf : ∀ a, i = .jeq a ∨ i = .jne a → f.getLsbD 0 = s.fl.getLsbD 0) :
    Both (Rerun i s q f l) (exec i s) (exec i (s.withControl q f l)) := by
  cases i with
  | zero =>
    cases hz : s.params.zeroOpcode with
    | spin =>
      rw [exec_zero_spin hz, exec_zero_spin (s := s.withControl q f l) hz]
      exact both_kept (hp := id)
    | fault =>
      rw [exec_zero_fault hz, exec_zero_fault (s := s.withControl q f l) hz]
      exact ⟨_, _, rfl, rfl, .ofTakeFault⟩
  | hlt | ret => exact both_kept
  | push _ | pop _ | prn _ | not _ | ldi _ _ => exact .ofWithReg (fun _ => both_kept) .ofTakeFault
  | call a =>
    refine .ofWithReg (fun ra => ⟨_, _, rfl, rfl, ?_⟩) .ofTakeFault
    refine ⟨rfl, rfl, rfl, rfl, ?_, fun _ => rfl, .inr ⟨rfl, rfl⟩, .inl ⟨rfl, rfl⟩⟩
    rintro (hi | rfl)
    · exact absurd rfl (hi a)
    · rfl
  | jmp a => exact both_jumpTo
  | jeq a =>
    have hbit : s.eFlag = (s.withControl q f l).eFlag := (hf a (.inl rfl)).symm
    exact .ofIte (by rw [hbit]) both_jumpTo both_kept
  | jne a =>
    have hbit : s.eFlag = (s.withControl q f l).eFlag := (hf a (.inr rfl)).symm
    exact .ofIte (by rw [hbit]) both_jumpTo both_kept
  | cmp a b =>
    refine .ofWithReg (fun ra => .ofWithReg (fun rb => ⟨_, _, rfl, rfl, ?_⟩) .ofTakeFault)
      .ofTakeFault
    exact ⟨rfl, rfl, rfl, rfl, fun _ => rfl, by rintro rfl; rfl, .inl rfl, .inl ⟨rfl, rfl⟩⟩
  | div a b =>
    exact .ofWithReg (fun _ => .ofWithReg
      (fun _ => .ofIte Iff.rfl ⟨_, _, rfl, rfl, .ofTakeFault⟩ both_kept) .ofTakeFault) .ofTakeFault
  | add _ _ | sub _ _ | mul _ _ | and _ _ | or _ _ | xor _ _ | shl _ _ | shr _ _ =>
    exact both_aluFrame

/-- `exec_rerun` from the next state that `exec` is known to answer. -/
theorem exec_rerun_of_next {i : Instr} {s t : State} (h : exec i s = .next t) (q f : Byte)
    (l : FaultLatch) (hf : ∀ a, i = .jeq a ∨ i = .jne a → f.getLsbD 0 = s.fl.getLsbD 0) :
    ∃ u, exec i (s.withControl q f l) = .next u ∧ Rerun i s q f l t u := by
  obtain ⟨t', u, ht, hu, hr⟩ := exec_rerun i s q f l hf
  obtain rfl := Host.Outcome.next.inj (h.symm.trans ht)
  exact ⟨u, hu, hr⟩

/-- R29: another FL, with the same bit 0 where the instruction is a conditional jump, shows in FL
alone. -/
theorem exec_with_fl {i : Instr} {s t : State} {f : Byte} (h : exec i s = .next t)
    (hf : ∀ a, i = .jeq a ∨ i = .jne a → f.getLsbD 0 = s.fl.getLsbD 0) :
    ∃ g, exec i { s with fl := f } = .next { t with fl := g } := by
  obtain ⟨u, hu, hr⟩ := exec_rerun_of_next h s.pc f s.fault hf
  have heq := hr.eq_of_same_pc
  rw [hr.fault_eq] at heq
  exact ⟨u.fl, hu.trans (congrArg _ heq)⟩

/-- Settles O37: `step_fl` says who writes FL, `exec_with_fl` what reading it can change. -/
theorem flagsWrittenByCompareReadByJumps : Obligations.FlagsWrittenByCompareReadByJumps := by
  unfold Obligations.FlagsWrittenByCompareReadByJumps
  refine ⟨fun s t h hne => ?_, fun s ra rb f => ⟨_, exec_cmp s ra rb, exec_cmp _ ra rb⟩,
    fun i s t f hf h => exec_with_fl h fun _ _ => hf, fun i s t f hi h => exec_with_fl h ?_⟩
  · obtain ⟨ra, rb, hi, -⟩ := (step_fl h).resolve_left hne
    exact ⟨_, _, hi⟩
  · rintro a (hj | hj)
    · exact absurd hj (hi a).1
    · exact absurd hj (hi a).2

/-- Settles O43: `exec_rerun` with the PC and FL as they are. -/
theorem noInstructionReadsTheLatch : Obligations.NoInstructionReadsTheLatch := by
  unfold Obligations.NoInstructionReadsTheLatch
  intro i s t l h
  obtain ⟨u, hu, hr⟩ := exec_rerun_of_next h s.pc s.fl l fun _ _ => rfl
  have heq := hr.eq_of_same_pc
  rw [hr.fl_eq] at heq
  exact ⟨u.fault, hr.fault.imp And.left fun hk => hk rfl, hu.trans (congrArg _ heq)⟩

/-- Settles O44: `exec_rerun` with FL and the latch as they are; CALL's byte is `exec_call`'s. -/
theorem onlyCallReadsThePc : Obligations.OnlyCallReadsThePc := by
  unfold Obligations.OnlyCallReadsThePc
  intro i s t q h
  obtain ⟨u, hu, hr⟩ := exec_rerun_of_next h q s.fl s.fault fun _ _ => rfl
  refine ⟨u, hu, hr.x, hr.fl_eq, hr.running, hr.out, fun hi => hr.mem (.inl hi), ?_⟩
  rintro ra rfl
  obtain rfl := Host.Outcome.next.inj ((exec_call _ ra).symm.trans hu)
  rfl

end Sys2Proof.Machine
end

section
/-! PROOFS of the statements about memory: what a write and a load leave in each cell, that canonical
memories are told apart by their reads, what a step fetches and which steps write. -/

namespace Sys2Proof.Machine

/-! ## What a canonical memory lists -/

/-- R48, read at every address at once. -/
theorem memRead_memWrite {m : Memory} (hm : Memory.wf m = true) (a v b : Byte) :
    memRead (memWrite m a v) b = if b = a then v else memRead m b := by
  split_ifs with h
  · rw [h, memRead_memWrite_self hm]
  · exact memRead_memWrite_other m v h

/-- Settles O28: a store keeps the canonical form, and its own cell alone reads another byte. -/
theorem memoryWriteSetsOneCell : Obligations.MemoryWriteSetsOneCell := by
  unfold Obligations.MemoryWriteSetsOneCell
  exact fun m a v hm => ⟨wf_memWrite hm a v, memRead_memWrite hm a v⟩

theorem Memory.wf_rising {m : Memory} (hm : Memory.wf m = true) :
    m.Pairwise (Order.Preimage Prod.fst (· < ·)) := by
  induction m with
  | nil => exact .nil
  | cons c m ih =>
    obtain ⟨-, -, hlt, hwf⟩ := Memory.wf_cons.1 hm
    exact .cons hlt (ih hwf)

/-- An entry is an address in the space with the byte its cell reads, and that byte is not the
unlisted one. -/
theorem lookupCell_of_mem {m : Memory} (hm : Memory.wf m = true) {k : Nat} {v : Byte}
    (h : (k, v) ∈ m) : k < Config.memorySize ∧ v ≠ Config.unlistedByte ∧ lookupCell m k = v := by
  induction m with
  | nil => cases h
  | cons c m ih =>
    obtain ⟨hk, hv, hlt, hwf⟩ := Memory.wf_cons.1 hm
    rcases List.mem_cons.1 h with rfl | h
    · exact ⟨hk, hv, if_pos rfl⟩
    · obtain ⟨hk', hv', hread⟩ := ih hwf h
      exact ⟨hk', hv', (if_neg (hlt _ h).ne).trans hread⟩

theorem mem_of_lookupCell {m : Memory} {k : Nat} (h : lookupCell m k ≠ Config.unlistedByte) :
    (k, lookupCell m k) ∈ m := by
  induction m with
  | nil => exact absurd rfl h
  | cons c m ih =>
    obtain ⟨j, w⟩ := c
    by_cases hj : j = k
    · simp [lookupCell, hj]
    · rw [lookupCell, if_neg hj] at h ⊢
      exact List.mem_cons_of_mem _ (ih h)

/-- A canonical memory lists exactly the cells that read other than an unlisted one. -/
theorem mem_iff_memRead {m : Memory} (hm : Memory.wf m = true) (c : Host.Cell) :
    c ∈ m ↔ ∃ a : Byte, memRead m a ≠ Config.unlistedByte ∧ c = (a.toNat, memRead m a) := by
  constructor
  · intro h
    obtain ⟨hk, hv, hread⟩ := lookupCell_of_mem hm h
    have ha : (BitVec.ofNat 8 c.1).toNat = c.1 := Nat.mod_eq_of_lt hk
    refine ⟨BitVec.ofNat 8 c.1, ?_⟩
    rw [memRead, ha, hread]
    exact ⟨hv, rfl⟩
  · rintro ⟨a, hread, rfl⟩
    exact mem_of_lookupCell hread

/-- Settles O29: two canonical memories with the same reads list the same cells, and both list them
by rising address. -/
theorem equalReadsGiveEqualMemories : Obligations.EqualReadsGiveEqualMemories := by
  unfold Obligations.EqualReadsGiveEqualMemories
  intro m n hm hn h
  refine (Memory.wf_rising hm).eq_of_mem_iff (Memory.wf_rising hn) fun c => ?_
  simp only [mem_iff_memRead hm, mem_iff_memRead hn, h]

/-! ## Which steps write memory -/

/-- R49: memory is kept, or a PUSH or a CALL writes one byte at the decremented SP. -/
theorem step_mem {s t : State} (h : step s = .next t) : t.mem = s.mem ∨
    (∃ a, s.fetched = .ok (.push a) ∨ s.fetched = .ok (.call a)) ∧
      ∃ v, t.mem = memWrite s.mem (s.x.get .r7 - 1) v := by
  rcases step_latch_or_effect h with ⟨l, rfl⟩ | ⟨-, i, hi, he⟩
  · exact .inl rfl
  · cases i
    case push a => obtain ⟨ra, -, rfl⟩ := he; exact .inr ⟨⟨a, .inl hi⟩, _, rfl⟩
    case call a => obtain ⟨ra, -, rfl⟩ := he; exact .inr ⟨⟨a, .inr hi⟩, _, rfl⟩
    all_goals exact .inl (he.mem_of_not_storing (by simp))

/-- Settles O46: `step_mem` names the one write there is, and a write keeps every other cell. -/
theorem onlyPushAndCallWriteMemory : Obligations.OnlyPushAndCallWriteMemory := by
  unfold Obligations.OnlyPushAndCallWriteMemory
  intro s t h
  rcases step_mem h with hkept | ⟨hstores, v, hmem⟩
  · exact ⟨fun a _ => by rw [hkept], fun hne => absurd hkept hne⟩
  · exact ⟨fun a ha => by rw [hmem, memRead_memWrite_other s.mem v ha], fun _ => hstores⟩

/-! ## The image -/

/-- R63: an image longer than memory is refused. -/
theorem loadImage_of_long {bytes : List Byte} (h : Config.memorySize < bytes.length) :
    loadImage bytes = none :=
  if_pos h

theorem loadImage_of_fits {bytes : List Byte} (h : bytes.length ≤ Config.memorySize) :
    loadImage bytes = some (placeBytes 0 bytes []) :=
  if_neg h.not_gt

/-- R56, R62: byte `k` is in cell `k`, and a cell past the image reads as an unlisted one. -/
theorem memRead_loadImage {bytes : List Byte} {n : Memory} (h : loadImage bytes = some n)
    (a : Byte) : memRead n a = bytes.getD a.toNat Config.unlistedByte := by
  obtain ⟨hlen, rfl⟩ := loadImage_some h
  rw [memRead, lookupCell_placeBytes bytes rfl (by omega), if_neg (Nat.not_lt_zero _), Nat.sub_zero,
    lookupCell]

/-- Settles O57: the length decides whether the image is placed, and `memRead_loadImage` says what
every cell then reads. -/
theorem imagePlacement : Obligations.ImagePlacement := by
  unfold Obligations.ImagePlacement
  refine fun bytes => ⟨loadImage_of_long, fun hlen => ?_⟩
  have hload := loadImage_of_fits hlen
  exact ⟨_, hload, wf_loadImage hload, memRead_loadImage hload⟩

/-! ## The fetch, and what reset and a step keep -/

/-- Settles O32: the PC's own sums 0xFE + 2, 0xFF + 1 and 0xFF + 2 wrap. -/
theorem fetchWrapsAtTheTop : Obligations.FetchWrapsAtTheTop := by
  unfold Obligations.FetchWrapsAtTheTop
  refine fun s => ⟨fun hpc => ?_, fun hpc => ?_⟩ <;>
    simp [State.fetchOp, State.fetchB1, State.fetchB2, State.load, hpc]

/-- R11: a step never changes the build. -/
theorem step_params {s t : State} (h : step s = .next t) : t.params = s.params := by
  rcases step_latch_or_effect h with ⟨l, rfl⟩ | ⟨-, i, -, he⟩
  · rfl
  · exact he.fault_params.2

/-- Settles O53: nothing is listed at reset, so every cell reads 0x00; the build is `step_params`. -/
theorem memoryAtCreationAndBuildKept : Obligations.MemoryAtCreationAndBuildKept := by
  unfold Obligations.MemoryAtCreationAndBuildKept
  exact ⟨fun _ => rfl, rfl, State.assertReset_params, fun _ _ => step_params⟩

end Sys2Proof.Machine
end

section
/-! PROOFS of the statements about the encoding: the encoder and the decoder undo each other, for
one instruction and for a whole program; which bytes are no opcode; the layout of the opcode bytes. -/

namespace Sys2Proof.Machine

/-! ## The decoder's own rules -/

/-- R71: what is decoded is what the row of the opcode byte reads. -/
theorem decode_ok_iff {p : Params} {op b1 b2 : Byte} {i : Instr} :
    decode p op b1 b2 = .ok i ↔ ∃ r, rowOf p op = some r ∧ r.form.read b1 b2 = i := by
  unfold decode
  cases rowOf p op <;> simp

/-- R76: a build lacks an instruction exactly when its opcode byte is the one `rowOf` removes. -/
theorem inBuild_iff (p : Params) (i : Instr) :
    inBuild p i = true ↔ ¬(opcodeByte i = 0xA8 ∧ p.hasAnd = false) := by
  cases i <;> simp [inBuild, opcodeByte]

theorem length_encode (i : Instr) : (encode i).length = instrLength i :=
  Nat.add_comm _ _

/-! ## Encoding, then decoding -/

/-- R69, R70: the row of the whole map at an instruction's opcode byte reads the instruction back
from its own bytes, whatever follows them. -/
theorem find_opcodeByte_reads (i : Instr) : ∃ r, opcodeMap.find? (·.byte == opcodeByte i) = some r ∧
    ∀ rest, r.form.read ((encode i ++ rest).getD 1 Config.unlistedByte)
      ((encode i ++ rest).getD 2 Config.unlistedByte) = i := by
  cases i <;> exact ⟨_, rfl, fun _ => rfl⟩

theorem decodeFront_encode_append {p : Params} {i : Instr} (hi : inBuild p i = true)
    (rest : List Byte) : decodeFront p (encode i ++ rest) = .ok i := by
  obtain ⟨r, hr, hread⟩ := find_opcodeByte_reads i
  have hrow : rowOf p (opcodeByte i) = some r := (if_neg ((inBuild_iff p i).1 hi)).trans hr
  exact decode_ok_iff.2 ⟨r, hrow, hread rest⟩

/-- Settles O3: the row of the instruction's opcode byte reads the operand bytes where `encode` put
them. -/
theorem decodeAfterEncode : Obligations.DecodeAfterEncode := by
  unfold Obligations.DecodeAfterEncode
  exact fun p i rest hi => decodeFront_encode_append hi rest

/-- R75: the decoded instruction's length is what to skip to reach the next one. -/
theorem disassemble_succ_encode_append {p : Params} {i : Instr} {n : Nat} {rest : List Byte}
    {is : List Instr} (hi : inBuild p i = true) (h : disassemble p n rest = .ok is) :
    disassemble p (n + 1) (encode i ++ rest) = .ok (i :: is) := by
  simp only [disassemble, decodeFront_encode_append hi, List.drop_left' (length_encode i), h]

/-- Settles O4, by induction on the program: its first instruction is read back and skipped, and the
bytes left are those of the rest. -/
theorem disassembleAfterAssemble : Obligations.DisassembleAfterAssemble := by
  unfold Obligations.DisassembleAfterAssemble
  intro p is
  induction is with
  | nil => exact fun _ => rfl
  | cons i is ih =>
    intro h
    obtain ⟨hi, his⟩ := List.forall_mem_cons.1 h
    exact disassemble_succ_encode_append hi (ih his)

/-! ## Decoding, then encoding -/

/-- Settles O5: `row_reads` gives the bytes back, and `rowOf` finds only rows the build has. -/
theorem encodeAfterDecode : Obligations.EncodeAfterDecode := by
  unfold Obligations.EncodeAfterDecode
  intro p op b1 b2 i h
  obtain ⟨r, hr, rfl⟩ := decode_ok_iff.1 h
  obtain ⟨hmem, rfl, hbuild⟩ := rowOf_some hr
  obtain ⟨hop, hlen, hbytes⟩ := row_reads hmem b1 b2
  exact ⟨(inBuild_iff _ _).2 (by rwa [hop]), by rw [hbytes, hlen]⟩

/-- R69: a one-byte format reads no operand byte. -/
theorem read_of_length_one {f : Form} (h : f.length = 1) (b1 b2 c1 c2 : Byte) :
    f.read c1 c2 = f.read b1 b2 := by
  cases f with
  | f0 => rfl
  | fr | frr | fri => cases h

/-- R69: a two-byte format does not read the second operand byte. -/
theorem read_of_length_two {f : Form} (h : f.length = 2) (b1 b2 c2 : Byte) :
    f.read b1 c2 = f.read b1 b2 := by
  cases f with
  | fr => rfl
  | f0 | frr | fri => cases h

/-- Settles O7: the row is found by the opcode byte alone, and its format reads no byte beyond its
length. -/
theorem bytesOutsideTheInstructionAreIgnored :
    Obligations.BytesOutsideTheInstructionAreIgnored := by
  unfold Obligations.BytesOutsideTheInstructionAreIgnored
  intro p op b1 b2 c1 c2 i h
  obtain ⟨r, hr, rfl⟩ := decode_ok_iff.1 h
  obtain ⟨-, hlen, -⟩ := row_reads (rowOf_some hr).1 b1 b2
  rw [hlen]
  exact ⟨fun h1 => decode_ok_iff.2 ⟨r, hr, read_of_length_one h1 b1 b2 c1 c2⟩,
    fun h2 => decode_ok_iff.2 ⟨r, hr, read_of_length_two h2 b1 b2 c2⟩⟩

/-! ## The bytes of each instruction -/

/-- Settles O1: each encoding computes, and so does the reading of R78's four lines. -/
theorem encodingOfEachInstruction : Obligations.EncodingOfEachInstruction := by
  unfold Obligations.EncodingOfEachInstruction
  refine ⟨fun a b => ?_, by decide⟩
  simp [encode, opcodeByte, operandBytes]

/-- Settles O2: the six words compute. -/
theorem specWordsDecode : Obligations.SpecWordsDecode :=
  ⟨rfl, rfl, rfl, rfl, rfl, rfl⟩

/-! ## Illegal opcode bytes -/

/-- R73: the bytes that decode to no instruction are those outside the list of R70. -/
theorem isOpcode_eq_false_iff (p : Params) (op b1 b2 : Byte) :
    isOpcode p op = false ↔ ∀ i, decode p op b1 b2 ≠ .ok i := by
  cases h : rowOf p op <;> simp [← rowOf_isSome, decode_ok_iff, h]

theorem isOpcode_of_decode_ok {p : Params} {op b1 b2 : Byte} {i : Instr}
    (h : decode p op b1 b2 = .ok i) : isOpcode p op = true :=
  Bool.of_not_eq_false fun hf => (isOpcode_eq_false_iff p op b1 b2).1 hf i h

/-- R73: the count of the bytes outside the list of R70, taken by the kernel over all 256. -/
theorem length_filter_not_isOpcode (p : Params) :
    ((List.range 256).filter fun n => !isOpcode p (BitVec.ofNat 8 n)).length =
      if p.hasAnd then 234 else 235 := by
  unfold isOpcode
  generalize p.hasAnd = b
  revert b
  decide +kernel

/-- R76: `HAS_AND` alone decides whether 0xA8 is an opcode. -/
theorem isOpcode_and (p : Params) : isOpcode p 0xA8 = p.hasAnd := by
  simp [isOpcode]

/-- R73: the LS-8 bytes that the source does not define. -/
theorem isOpcode_eq_false_of_LS8 (p : Params) :
    ∀ op ∈ ([0xA4, 0x65, 0x66, 0x83, 0x84, 0x57, 0x58, 0x59, 0x5A, 0x52, 0x13, 0x48] : List Byte),
      isOpcode p op = false := by
  simp [isOpcode]

/-- R89: a byte that decodes to nothing makes the step raise DecodeError. -/
theorem step_of_decode_ne_ok {s : State} (hs : s.status = .run)
    (h : ∀ b1 b2 i, decode s.params s.fetchOp b1 b2 ≠ .ok i) :
    step s = .next (s.takeFault .decodeError s.fetchOp 0) := by
  cases hf : s.fetched with
  | ok i => exact absurd hf (h _ _ i)
  | error r => exact step_unknown hs hf

/-- Settles O6: decoding and the list of R70 agree, so each clause is one about the list. -/
theorem illegalOpcodeBytes : Obligations.IllegalOpcodeBytes := by
  unfold Obligations.IllegalOpcodeBytes
  refine ⟨isOpcode_eq_false_iff, fun p => ?_, fun p b1 b2 hp => ?_, fun op hop p b1 b2 => ?_,
    fun s hs h => step_of_decode_ne_ok hs h⟩
  · refine (congrArg List.length (List.filter_congr fun n _ => ?_)).trans
      (length_filter_not_isOpcode p)
    cases h : decode p (BitVec.ofNat 8 n) 0 0 with
    | ok i => rw [isOpcode_of_decode_ok h]; rfl
    | error r => rw [(isOpcode_eq_false_iff p _ 0 0).2 fun i hi => nomatch h.symm.trans hi]; rfl
  · exact (isOpcode_eq_false_iff p _ b1 b2).1 ((isOpcode_and p).trans hp)
  · exact (isOpcode_eq_false_iff p op b1 b2).1 (isOpcode_eq_false_of_LS8 p op hop)

/-! ## The layout of the opcode bytes, and the operand bytes -/

/-- Settles O8: the map's 22 rows, one by one. -/
theorem opcodeByteLayout : Obligations.OpcodeByteLayout := by
  unfold Obligations.OpcodeByteLayout
  decide

/-- Settles O31: a byte up to 7 is that of the register it names, whose number is its place. -/
theorem registerOperandRange : Obligations.RegisterOperandRange := by
  unfold Obligations.RegisterOperandRange
  refine fun v => ⟨fun hv => ?_, regOf_none⟩
  obtain ⟨r, hr, rfl⟩ := regOf_some_of_le hv
  exact ⟨r, hr, fun x => (numbered_byte x r).symm⟩

end Sys2Proof.Machine
end

section
/-! PROOFS of the statements about the execute loop: what a step runs, which fault the bytes at the
PC pick, how runs and the block move and end, and what the instructions that write no register and
no memory leave alone. -/

namespace Sys2Proof.Machine

/-! ## Runs -/

/-- Settles O12, by induction on the number of steps: each step answers a state to go on from. -/
theorem everyRunAnswersAState : Obligations.EveryRunAnswersAState := by
  unfold Obligations.EveryRunAnswersAState
  intro k
  induction k with
  | zero => exact fun s => ⟨s, rfl⟩
  | succ k ih =>
    intro s
    obtain ⟨t, ht⟩ := step_answers s
    rw [runSteps_succ_of_next k ht]
    exact ih t

/-- A state that a step answers with itself is where every run from it stays. -/
theorem runSteps_of_step_self {s : State} (h : step s = .next s) (k : Nat) :
    runSteps k s = .next s := by
  induction k with
  | zero => rfl
  | succ k ih => rw [runSteps_succ_of_next k h, ih]

/-- R91, along a run. -/
theorem runSteps_idle {s : State} (h : s.status ≠ .run) (k : Nat) : runSteps k s = .next s :=
  runSteps_of_step_self (step_idle h) k

/-- Settles O11: outside RUN a step is idle, so of the block's moves only `rst` is left to change
the state, and the reset state is in RUN. -/
theorem endedRunsStayEndedUntilReset : Obligations.EndedRunsStayEndedUntilReset := by
  unfold Obligations.EndedRunsStayEndedUntilReset
  refine fun s hs => ⟨runSteps_idle hs, fun mv t h => ?_, fun ws => ⟨_, rfl, rfl⟩⟩
  cases mv with
  | assertReset ws => exact .inr ⟨ws, rfl⟩
  | grantStep => exact .inl (Host.Outcome.next.inj (h.symm.trans (step_idle hs)))
  | wait => exact .inl (Host.Outcome.next.inj h).symm

/-! ## What a step runs -/

/-- R16, R85: the three fetched bytes, their addresses as sums mod 256. -/
theorem State.fetched_eq (s : State) : s.fetched =
    decode s.params (memRead s.mem s.pc) (memRead s.mem (s.pc + 1)) (memRead s.mem (s.pc + 2)) := by
  simp [State.fetched, State.fetchOp, State.fetchB1, State.fetchB2, State.load]

/-- Settles O9: the three bytes written out are those a step fetches. -/
theorem stepRunsTheDecodedInstruction : Obligations.StepRunsTheDecodedInstruction := by
  unfold Obligations.StepRunsTheDecodedInstruction
  intro s
  rw [← s.fetched_eq]
  exact ⟨fun hs _ => step_decoded hs, fun hs _ => step_unknown hs, step_idle⟩

/-- Settles O10: a byte outside the list of R70 decodes to nothing. -/
theorem unknownOpcodeFaults : Obligations.UnknownOpcodeFaults := by
  unfold Obligations.UnknownOpcodeFaults
  exact fun s hs hop =>
    step_of_decode_ne_ok hs fun b1 b2 => (isOpcode_eq_false_iff _ _ b1 b2).1 hop

/-- R69: the bytes after a one-byte instruction of the build do not change what is decoded. -/
theorem decode_of_no_operands {p : Params} {i : Instr} (hi : inBuild p i = true)
    (hnone : operandBytes i = []) (b1 b2 : Byte) : decode p (opcodeByte i) b1 b2 = .ok i := by
  have h := decodeFront_encode_append hi [b1, b2]
  rwa [encode, hnone] at h

/-- Settles O26: under `Spin` the step answers its own state, so a run stays there. -/
theorem zeroSpinsOrFaults : Obligations.ZeroSpinsOrFaults := by
  unfold Obligations.ZeroSpinsOrFaults
  have hdecode (p : Params) (b1 b2 : Byte) : decode p 0x00 b1 b2 = .ok .zero :=
    decode_of_no_operands (i := .zero) rfl rfl b1 b2
  refine ⟨fun s => exec_zero_spin, fun s => exec_zero_fault, rfl, hdecode, fun s hs hz hop => ?_⟩
  have hfetch : s.fetched = .ok .zero := by rw [s.fetched_eq, hop, hdecode]
  exact runSteps_of_step_self ((step_decoded hs hfetch).trans (exec_zero_spin hz))

/-- R88. -/
theorem exec_hlt (s : State) : exec .hlt s = .next { s with running := false, pc := s.pc + 1 } := by
  simp [exec, execHlt, State.halt, State.setPc]

/-- Settles O27: HLT from RUN leaves the latch clear and `running` false, which is HALTED. -/
theorem haltEndsTheRun : Obligations.HaltEndsTheRun := by
  unfold Obligations.HaltEndsTheRun
  refine ⟨exec_hlt, rfl, fun p => decode_of_no_operands (i := .hlt) rfl rfl, fun s t hs h => ?_⟩
  obtain rfl := Host.Outcome.next.inj ((exec_hlt s).symm.trans h)
  have ht : State.status { s with running := false, pc := s.pc + 1 } = .halted :=
    (State.status_halted_iff _).2 ⟨(s.status_run_iff.1 hs).1, rfl⟩
  exact ⟨ht, runSteps_idle (by rw [ht]; decide)⟩

/-! ## Frames -/

/-- An instruction has its effect, or its fault changes the latch alone and leaves a cause in it. -/
theorem exec_effect_or_latch {i : Instr} {s t : State} (h : exec i s = .next t) :
    Effect i s t ∨ ∃ l : FaultLatch, l.code ≠ .none ∧ t = { s with fault := l } := by
  rcases exec_cases h with he | ⟨c, v, ho, rfl⟩
  · exact .inl he
  · exact .inr ⟨_, ho.code_ne_none, rfl⟩

/-- R32, R147: only a fault writes the latch, and it writes nothing else. -/
theorem exec_latchFrame {i : Instr} {s t : State} (h : exec i s = .next t) : LatchFrame s t := by
  rcases exec_effect_or_latch h with he | ⟨l, hl, rfl⟩
  · exact .inl he.fault_params.1
  · exact .inr ⟨hl, rfl⟩

theorem Effect.x_of_writesNeither {i : Instr} {s t : State} (h : Effect i s t)
    (hi : writesNeither i = true) : t.x = s.x := by
  cases i
  case zero | hlt => obtain rfl := h; rfl
  case prn a | jmp a => obtain ⟨ra, -, rfl⟩ := h; rfl
  case jeq a | jne a => rcases h with ⟨-, ra, -, rfl⟩ | ⟨-, rfl⟩ <;> rfl
  case cmp a b => obtain ⟨ra, rb, -, -, rfl⟩ := h; rfl
  all_goals cases hi

theorem not_storing_of_writesNeither {i : Instr} (hi : writesNeither i = true) (a : Byte) :
    i ≠ .push a ∧ i ≠ .call a := by
  constructor <;> rintro rfl <;> cases hi

/-- Settles O34: a fault writes the latch alone, and an effect writes each field only as the lemmas
about `Effect` say. -/
theorem nonWritingFormsFrame : Obligations.NonWritingFormsFrame := by
  unfold Obligations.NonWritingFormsFrame
  intro i s t hi h
  have hlatch := exec_latchFrame h
  rcases exec_effect_or_latch h with he | ⟨l, -, rfl⟩
  · have hx := he.x_of_writesNeither hi
    have hmem := he.mem_of_not_storing (not_storing_of_writesNeither hi)
    refine ⟨fun r => by rw [hx], fun hne => ?_, fun hne => ?_, fun hne => ?_, he.fault_params.2,
      fun a => by rw [hmem], hlatch⟩
    · by_contra hcmp
      exact hne (he.fl_of_not_cmp fun a b hab => hcmp ⟨a, b, hab⟩)
    · by_contra hhlt
      exact hne (he.running_of_not_hlt hhlt)
    · by_contra hprn
      exact hne (he.out_of_not_prn fun a ha => hprn ⟨a, ha⟩)
  · exact ⟨fun _ => rfl, absurd rfl, absurd rfl, absurd rfl, rfl, fun _ => rfl, hlatch⟩

/-! ## The fault that the bytes at the PC pick -/

/-- R67: InvalidRegister where a byte names no register, and otherwise what is checked after it. -/
def orBadRegister (v : Byte) (later : Option (FaultCode × Byte)) : Option (FaultCode × Byte) :=
  if 7 < v.toNat then some (.invalidRegister, v) else later

/-- R145, by instruction: the fault it takes in `s`, with the operand the latch records. -/
def faultOf (i : Instr) (s : State) : Option (FaultCode × Byte) :=
  match i with
  | .zero => if s.params.zeroOpcode = .fault then some (.zeroSpin, 0) else none
  | .hlt | .ret => none
  | .push a | .pop a | .prn a | .call a | .jmp a | .not a | .ldi a _ => orBadRegister a none
  | .jeq a => if s.fl.getLsbD 0 = true then orBadRegister a none else none
  | .jne a => if s.fl.getLsbD 0 = false then orBadRegister a none else none
  | .div a b => orBadRegister a (orBadRegister b
      (if numbered s.x b.toNat = 0 then some (.divideByZero, 0) else none))
  | .add a b | .sub a b | .mul a b | .cmp a b | .and a b | .or a b | .xor a b | .shl a b
  | .shr a b => orBadRegister a (orBadRegister b none)

/-- The spec's choice from the fetched bytes is that of the instruction they decode to. -/
theorem expectedFault_of_fetched {s : State} {i : Instr} (h : s.fetched = .ok i) :
    expectedFault s = faultOf i s := by
  rw [s.fetched_eq] at h
  have hop := isOpcode_of_decode_ok h
  obtain ⟨-, hbytes⟩ := encodeAfterDecode _ _ _ _ _ h
  unfold expectedFault
  rw [if_neg (by rw [hop]; decide)]
  generalize memRead s.mem s.pc = op at hbytes ⊢
  generalize memRead s.mem (s.pc + 1) = b1 at hbytes ⊢
  generalize memRead s.mem (s.pc + 2) = b2 at hbytes ⊢
  cases i <;> simp only [encode, opcodeByte, operandBytes, instrLength, List.length_cons,
    List.length_nil, List.take_succ_cons, List.take_zero, List.cons.injEq, and_true] at hbytes
  case zero | hlt | ret =>
    obtain rfl := hbytes
    simp [faultOf, usesFirst, usesSecond]
  case jeq | jne =>
    obtain ⟨rfl, rfl⟩ := hbytes
    simp [faultOf, orBadRegister, usesFirst, usesSecond, ite_and]
  case push | pop | prn | call | jmp | not =>
    obtain ⟨rfl, rfl⟩ := hbytes
    simp [faultOf, orBadRegister, usesFirst, usesSecond]
  all_goals
    obtain ⟨rfl, rfl, rfl⟩ := hbytes
    simp [faultOf, orBadRegister, usesFirst, usesSecond]

/-- The answer `o` to a step from `s` takes the fault `f`, recorded with the opcode byte `op`, or
raises none where `f` is none. -/
def TakesFault (op : Byte) (s : State) (o : Result) : Option (FaultCode × Byte) → Prop
  | some (c, v) => o = .next (s.takeFault c op v)
  | none => ∃ t, o = .next t ∧ t.fault = s.fault

namespace TakesFault

variable {i : Instr} {s : State} {f : Option (FaultCode × Byte)}

theorem ofIte {c : Prop} [Decidable c] {op : Byte} {o o' : Result} {f' : Option (FaultCode × Byte)}
    (h : TakesFault op s o f) (h' : TakesFault op s o' f') :
    TakesFault op s (if c then o else o') (if c then f else f') := by
  split_ifs
  · exact h
  · exact h'

theorem ofWithReg {v : Byte} {go : Reg → Result}
    (hgo : ∀ r : Reg, v = r.byte → TakesFault (opcodeByte i) s (go r) f) :
    TakesFault (opcodeByte i) s (withReg i v s go) (orBadRegister v f) := by
  unfold orBadRegister
  split_ifs with hv
  · exact withReg_invalid i hv s go
  · obtain ⟨r, -, rfl⟩ := regOf_some_of_le (Nat.le_of_not_lt hv)
    rw [withReg_byte]
    exact hgo r rfl

theorem ofWithTwoRegs {a b : Byte} {go : Reg → Reg → Result}
    (hgo : ∀ ra rb : Reg, b = rb.byte → TakesFault (opcodeByte i) s (go ra rb) f) :
    TakesFault (opcodeByte i) s (withTwoRegs i a b s go) (orBadRegister a (orBadRegister b f)) :=
  ofWithReg fun ra _ => ofWithReg fun rb hb => hgo ra rb hb

theorem ofAluFrame {a b : Byte} {g : Byte → Byte → Byte} :
    TakesFault (opcodeByte i) s (aluFrame i a b g s) (orBadRegister a (orBadRegister b none)) :=
  ofWithTwoRegs fun _ _ _ => ⟨_, rfl, rfl⟩

theorem ofJumpTo {a : Byte} :
    TakesFault (opcodeByte i) s (jumpTo i a s) (orBadRegister a none) :=
  ofWithReg fun _ _ => ⟨_, rfl, rfl⟩

end TakesFault

/-- R145: an instruction takes the fault `faultOf` says, and no other. -/
theorem exec_takesFault (i : Instr) (s : State) :
    TakesFault (opcodeByte i) s (exec i s) (faultOf i s) := by
  cases i with
  | zero =>
    cases hz : s.params.zeroOpcode with
    | spin =>
      rw [exec_zero_spin hz, faultOf, hz]
      exact ⟨s, rfl, rfl⟩
    | fault =>
      rw [exec_zero_fault hz, faultOf, hz]
      rfl
  | hlt | ret => exact ⟨_, rfl, rfl⟩
  | push a | pop a | prn a | call a | not a | ldi a imm => exact .ofWithReg fun _ _ => ⟨_, rfl, rfl⟩
  | jmp a => exact .ofJumpTo
  | jeq a | jne a => exact .ofIte .ofJumpTo ⟨_, rfl, rfl⟩
  | cmp a b => exact .ofWithTwoRegs fun _ _ _ => ⟨_, rfl, rfl⟩
  | div a b =>
    refine .ofWithTwoRegs fun ra rb hb => ?_
    subst hb
    rw [numbered_byte]
    exact .ofIte rfl ⟨_, rfl, rfl⟩
  | add a b | sub a b | mul a b | and a b | or a b | xor a b | shl a b | shr a b =>
    exact .ofAluFrame

/-- R145: a step in RUN takes the fault that the spec's priority picks, and no other. -/
theorem step_takesFault {s : State} (hs : s.status = .run) :
    TakesFault s.fetchOp s (step s) (expectedFault s) := by
  cases hf : s.fetched with
  | ok i =>
    rw [step_decoded hs hf, expectedFault_of_fetched hf, ← decode_opcode hf]
    exact exec_takesFault i s
  | error r =>
    have hpick : expectedFault s = some (.decodeError, 0) := if_pos (isOpcode_of_fetched_error hf)
    rw [hpick]
    exact step_unknown hs hf

theorem code_ne_none_of_expectedFault {s : State} {c : FaultCode} {v : Byte}
    (h : expectedFault s = some (c, v)) : c ≠ .none := by
  rintro rfl
  simp only [expectedFault] at h
  split_ifs at h <;> cases h

/-- A step from RUN ends FAULTED exactly when the spec's priority picks a fault. -/
theorem step_faulted_iff {s t : State} (hs : s.status = .run) (h : step s = .next t) :
    t.status = .faulted ↔ expectedFault s ≠ none := by
  have htakes := step_takesFault hs
  rw [h] at htakes
  rw [t.status_faulted_iff]
  cases hf : expectedFault s with
  | none =>
    rw [hf] at htakes
    obtain ⟨u, hu, hfault⟩ := htakes
    obtain rfl := Host.Outcome.next.inj hu
    simp [hfault, (s.status_run_iff.1 hs).1]
  | some p =>
    obtain ⟨c, v⟩ := p
    rw [hf] at htakes
    obtain rfl := Host.Outcome.next.inj htakes
    simp [code_ne_none_of_expectedFault hf]

/-! ## The block -/

/-- R88, R92: a step leads from RUN to HALTED only by HLT. -/
theorem fetched_hlt_of_step_halted {s t : State} (hs : s.status = .run) (h : step s = .next t)
    (ht : t.status = .halted) : s.fetched = .ok .hlt := by
  rcases step_running h with hkept | ⟨hhlt, -⟩
  · rw [(s.status_run_iff.1 hs).2, (t.status_halted_iff.1 ht).2] at hkept
    cases hkept
  · exact hhlt

/-- Settles O56, by the block's moves: under `rst` the answer is the reset state, and a granted step
is one of the core. -/
theorem blockStateMachine : Obligations.BlockStateMachine := by
  unfold Obligations.BlockStateMachine
  intro mv s t h
  cases mv with
  | assertReset ws =>
    obtain rfl := Host.Outcome.next.inj h
    refine ⟨?_, nofun, nofun, nofun, nofun, nofun⟩
    rintro ws' hws
    obtain rfl := HostMove.assertReset.inj hws
    exact ⟨rfl, rfl, rfl⟩
  | grantStep =>
    have hstep : step s = .next t := h
    refine ⟨nofun, fun _ => hstep, nofun, fun _ hs => fetched_hlt_of_step_halted hs hstep,
      fun _ hs => step_faulted_iff hs hstep, fun _ hs => ?_⟩
    rw [Host.Outcome.next.inj (hstep.symm.trans (step_idle hs))]
  | wait => exact ⟨nofun, nofun, fun _ => (Host.Outcome.next.inj h).symm, nofun, nofun, nofun⟩

end Sys2Proof.Machine
end

section
/-! PROOFS of the statements about the ALU: what its forms write and leave unchanged, their faults,
the arithmetic of their results, and the jump after a comparison. -/

namespace Sys2Proof.Machine

/-! ## What the register-writing forms change -/

/-- R95, R106, R120: the effect of a register-writing form is one write to its destination register
and a new PC. -/
theorem Effect.sets_destination {i : Instr} {s t : State} (h : Effect i s t)
    (hi : isRegisterForm i = true) : ∃ (ra : Reg) (v p : Byte),
      destinationByte i = some ra.byte ∧ t = { s with x := s.x.set ra v, pc := p } := by
  cases i
  case not a | ldi a imm => obtain ⟨ra, rfl, rfl⟩ := h; exact ⟨ra, _, _, rfl, rfl⟩
  case div a b => obtain ⟨ra, rb, rfl, rfl, -, rfl⟩ := h; exact ⟨ra, _, _, rfl, rfl⟩
  case add a b | sub a b | mul a b | and a b | or a b | xor a b | shl a b | shr a b =>
    obtain ⟨ra, rb, rfl, rfl, rfl⟩ := h; exact ⟨ra, _, _, rfl, rfl⟩
  all_goals cases hi

/-- Settles O33: an effect is one register write and a new PC, and a fault writes the latch
alone. -/
theorem registerFormsFrame : Obligations.RegisterFormsFrame := by
  unfold Obligations.RegisterFormsFrame
  intro i s t hi h
  have hlatch := exec_latchFrame h
  rcases exec_effect_or_latch h with he | ⟨l, -, rfl⟩
  · obtain ⟨ra, v, p, hdest, rfl⟩ := he.sets_destination hi
    refine ⟨fun r hr => Regs.get_set_other s.x v ?_, rfl, rfl, rfl, rfl, fun _ => rfl, hlatch⟩
    rintro rfl
    exact hr hdest
  · exact ⟨fun _ _ => rfl, rfl, rfl, rfl, rfl, fun _ => rfl, hlatch⟩

/-! ## A comparison, then a jump -/

/-- R28, R100: bit 0 of FL after CMP says whether the two values were equal. -/
theorem compareFlags_getLsbD_zero (va vb : Byte) :
    (compareFlags va vb).getLsbD 0 = decide (va = vb) := by
  unfold compareFlags
  split_ifs with heq hgt
  · simp [BitVec.eq_of_toNat_eq heq, flagE]
  · simp [mt (congrArg BitVec.toNat) heq, flagG]
  · simp [mt (congrArg BitVec.toNat) heq, flagL]

/-- R134. -/
theorem exec_jeq (s : State) (r : Reg) : exec (.jeq r.byte) s =
    .next { s with pc := if s.fl.getLsbD 0 = true then s.x.get r else s.pc + 2 } := by
  simp only [exec, execJeq, State.eFlag, jumpTo, withReg_byte, State.pcPlus_eq]
  split_ifs <;> rfl

/-- R135. -/
theorem exec_jne (s : State) (r : Reg) : exec (.jne r.byte) s =
    .next { s with pc := if s.fl.getLsbD 0 = false then s.x.get r else s.pc + 2 } := by
  simp only [exec, execJne, State.eFlag, jumpTo, withReg_byte, State.pcPlus_eq]
  split_ifs <;> rfl

/-- Settles O50: CMP leaves the registers and the equality of the two values in bit 0 of FL, which
is what the jump reads. -/
theorem compareThenJump : Obligations.CompareThenJump := by
  unfold Obligations.CompareThenJump
  intro s t ra rb rc h
  obtain rfl := Host.Outcome.next.inj ((exec_cmp s ra rb).symm.trans h)
  have hpc : s.pc + 3 + 2 = s.pc + 5 := BitVec.add_assoc s.pc 3 2
  rw [exec_jeq, exec_jne]
  simp only [compareFlags_getLsbD_zero, decide_eq_true_eq, decide_eq_false_iff_not, ite_not, hpc,
    and_self]

/-! ## The operations on bytes -/

/-- Settles O51: the five operations are those of bit vectors; for SUB, `0 - 1` and `0 - 0 - 1` show
it. -/
theorem aluCommutativityAndAssociativity : Obligations.AluCommutativityAndAssociativity := by
  unfold Obligations.AluCommutativityAndAssociativity
  refine ⟨fun f hf x y z => ?_, ⟨0, 1, by decide⟩, ⟨0, 0, 1, by decide⟩⟩
  simp only [List.mem_cons, List.not_mem_nil, or_false] at hf
  rcases hf with rfl | rfl | rfl | rfl | rfl
  · simp only [aluAdd_eq]
    exact ⟨BitVec.add_comm x y, BitVec.add_assoc x y z⟩
  · simp only [aluMul_eq]
    exact ⟨BitVec.mul_comm x y, BitVec.mul_assoc x y z⟩
  · exact ⟨BitVec.and_comm x y, BitVec.and_assoc x y z⟩
  · exact ⟨BitVec.or_comm x y, BitVec.or_assoc x y z⟩
  · exact ⟨BitVec.xor_comm x y, BitVec.xor_assoc x y z⟩

/-- R96. -/
theorem aluAdd_eq_ofNat (va vb : Byte) : aluAdd va vb = BitVec.ofNat 8 (va.toNat + vb.toNat) :=
  u8_natCast (va.toNat + vb.toNat)

/-- R97: 256 added to the first value keeps the difference a natural number. -/
theorem aluSub_eq_ofNat (va vb : Byte) :
    aluSub va vb = BitVec.ofNat 8 (va.toNat + 256 - vb.toNat) := by
  have hb := vb.isLt
  apply BitVec.eq_of_toNat_eq
  rw [aluSub_eq, BitVec.toNat_sub, BitVec.toNat_ofNat]
  omega

/-- R98. -/
theorem aluMul_eq_ofNat (va vb : Byte) : aluMul va vb = BitVec.ofNat 8 (va.toNat * vb.toNat) :=
  u8_natCast (va.toNat * vb.toNat)

/-- R104. -/
theorem aluShl_eq_ofNat (va vb : Byte) :
    aluShl va vb = BitVec.ofNat 8 (va.toNat * 2 ^ vb.toNat) := by
  rw [aluShl, u8_natCast, Nat.shiftLeft_eq]

/-- R105 under `Right`. -/
theorem aluShr_right_eq_ofNat (va vb : Byte) :
    aluShr .right va vb = BitVec.ofNat 8 (va.toNat / 2 ^ vb.toNat) := by
  rw [aluShr, u8_natCast, Nat.shiftRight_eq_div_pow]

/-- R104: from 8 on, every bit is shifted past bit 7. -/
theorem aluShl_eq_zero {vb : Byte} (h : 8 ≤ vb.toNat) (va : Byte) : aluShl va vb = 0 := by
  have hdvd : 2 ^ 8 ∣ va.toNat * 2 ^ vb.toNat := (pow_dvd_pow 2 h).mul_left _
  rw [aluShl_eq_ofNat]
  exact BitVec.eq_of_toNat_eq (Nat.mod_eq_zero_of_dvd hdvd)

/-- R105: the same in both modes. -/
theorem aluShr_eq_zero {vb : Byte} (h : 8 ≤ vb.toNat) (mode : ShrMode) (va : Byte) :
    aluShr mode va vb = 0 := by
  cases mode with
  | right =>
    have hlt : va.toNat < 2 ^ vb.toNat := va.isLt.trans_le (Nat.pow_le_pow_right Nat.two_pos h)
    rw [aluShr_right_eq_ofNat, Nat.div_eq_of_lt hlt]
    rfl
  | asSourceLeft => exact aluShl_eq_zero h va

/-- R99: the quotient fits a byte. -/
theorem aluDiv_toNat (va vb : Byte) : (aluDiv va vb).toNat = va.toNat / vb.toNat := by
  rw [aluDiv, u8_natCast, BitVec.toNat_ofNat]
  exact Nat.mod_eq_of_lt ((Nat.div_le_self _ _).trans_lt va.isLt)

/-- R106. -/
theorem aluNot_eq_sub (va : Byte) : aluNot va = 255 - va :=
  (aluNot_eq va).trans (BitVec.allOnes_sub_eq_not va).symm

/-! R100, case by case. -/

theorem compareFlags_of_eq {va vb : Byte} (h : va.toNat = vb.toNat) :
    compareFlags va vb = 0x01 := if_pos h

theorem compareFlags_of_gt {va vb : Byte} (h : va.toNat > vb.toNat) :
    compareFlags va vb = 0x02 := (if_neg h.ne').trans (if_pos h)

theorem compareFlags_of_lt {va vb : Byte} (h : va.toNat < vb.toNat) :
    compareFlags va vb = 0x04 := (if_neg h.ne).trans (if_neg h.not_gt)

/-! ## The ALU forms on operands that name registers -/

/-- R95: the shared frame writes the operation's result and moves the PC by 3. -/
theorem aluFrame_byte (i : Instr) (ra rb : Reg) (f : Byte → Byte → Byte) (s : State) :
    aluFrame i ra.byte rb.byte f s = .next { s with
      x := s.x.set ra (f (s.x.get ra) (s.x.get rb)), pc := s.pc + 3 } := by
  simp [aluFrame, withTwoRegs, withReg_byte, State.setReg, State.setPc, State.reg]

/-- R95: a form whose meaning is the frame of `g` writes what `g` answers. -/
theorem frrWrites_of_aluFrame {mk : Byte → Byte → Instr} {f g : Byte → Byte → Byte}
    (hg : ∀ va vb, g va vb = f va vb)
    (hexec : ∀ s a b, exec (mk a b) s = aluFrame (mk a b) a b g s := by exact fun _ _ _ => rfl) :
    FrrWrites mk f := fun s ra rb => by
  rw [hexec, aluFrame_byte, hg]

/-- R105, by the build's mode. -/
theorem exec_shr (s : State) (ra rb : Reg) : exec (.shr ra.byte rb.byte) s = .next { s with
    x := s.x.set ra (aluShr s.params.shrMode (s.x.get ra) (s.x.get rb)), pc := s.pc + 3 } :=
  aluFrame_byte ..

/-- R106. -/
theorem exec_not (s : State) (ra : Reg) : exec (.not ra.byte) s =
    .next { s with x := s.x.set ra (aluNot (s.x.get ra)), pc := s.pc + 2 } := by
  simp [exec, execNot, withReg_byte, State.setReg, State.setPc, State.reg]

/-- R99: the divisor is looked at once both operands name registers. -/
theorem exec_div (s : State) (ra rb : Reg) : exec (.div ra.byte rb.byte) s =
    if s.x.get rb = 0 then .next (s.takeFault .divideByZero 0xA3 0)
    else .next { s with
      x := s.x.set ra (aluDiv (s.x.get ra) (s.x.get rb)), pc := s.pc + 3 } := by
  simp [exec, execDiv, withTwoRegs, withReg_byte, raiseFault, opcodeByte, State.setReg,
    State.setPc, State.reg]

/-! ## The ALU forms on operands that name no register -/

/-- R95: whatever a form does after the two register checks, a bad byte stops it there, operand 1
first. -/
theorem frrEncodingAndFaults_of_withTwoRegs {mk : Byte → Byte → Instr} {op : Byte}
    (henc : ∀ a b, encode (mk a b) = [op, a, b] := by exact fun _ _ => rfl)
    (hexec : ∀ s a b, ∃ go, exec (mk a b) s = withTwoRegs (mk a b) a b s go := by
      exact fun _ _ _ => ⟨_, rfl⟩) :
    FrrEncodingAndFaults mk op := by
  intro s a b
  obtain ⟨go, hgo⟩ := hexec s a b
  have hop : opcodeByte (mk a b) = op := (List.cons.inj (henc a b)).1
  refine ⟨henc a b, fun ha => ?_, fun ha hb => ?_⟩
  · rw [hgo, withTwoRegs, withReg_invalid _ ha, hop, State.takeFault]
  · obtain ⟨ra, -, rfl⟩ := regOf_some_of_le ha
    rw [hgo, withTwoRegs, withReg_byte, withReg_invalid _ hb, hop, State.takeFault]

/-- R106: the same for the one check of NOT. -/
theorem frEncodingAndFaults_not : FrEncodingAndFaults .not 0x69 :=
  fun s _ => ⟨rfl, fun ha => withReg_invalid _ ha s _⟩

/-! ## The results -/

/-- R76, R101: `HAS_AND` alone decides what byte 0xA8 decodes to. -/
theorem decode_and (p : Params) (b1 b2 : Byte) : decode p 0xA8 b1 b2 =
    if p.hasAnd then .ok (.and b1 b2) else .error (.unknownOpcode 0xA8) := by
  cases hp : p.hasAnd with
  | true => exact decodeFront_encode_append (i := .and b1 b2) hp []
  | false =>
    cases hd : decode p 0xA8 b1 b2 with
    | ok i => exact absurd hd ((isOpcode_eq_false_iff p _ b1 b2).1 ((isOpcode_and p).trans hp) i)
    | error r => rw [decode_error hd]; rfl

/-- Settles O13: the three forms share the ALU frame, and each operation is the exact result mod
256. -/
theorem addSubMulResults : Obligations.AddSubMulResults := by
  unfold Obligations.AddSubMulResults
  exact ⟨frrWrites_of_aluFrame aluAdd_eq_ofNat,
    frrEncodingAndFaults_of_withTwoRegs,
    frrWrites_of_aluFrame aluSub_eq_ofNat,
    frrEncodingAndFaults_of_withTwoRegs,
    frrWrites_of_aluFrame aluMul_eq_ofNat,
    frrEncodingAndFaults_of_withTwoRegs⟩

/-- Settles O14: the three forms share the ALU frame, NOT has its own, and `HAS_AND` acts in the
decoder alone. -/
theorem bitwiseResults : Obligations.BitwiseResults := by
  unfold Obligations.BitwiseResults
  exact ⟨frrWrites_of_aluFrame (g := aluAnd) fun _ _ => rfl,
    frrEncodingAndFaults_of_withTwoRegs,
    decode_and,
    frrWrites_of_aluFrame (g := aluOr) fun _ _ => rfl,
    frrEncodingAndFaults_of_withTwoRegs,
    frrWrites_of_aluFrame (g := aluXor) fun _ _ => rfl,
    frrEncodingAndFaults_of_withTwoRegs,
    fun s ra => by rw [exec_not, aluNot_eq_sub],
    frEncodingAndFaults_not⟩

/-- Settles O15: both shifts share the ALU frame, and their operations are a product and a quotient
by a power of 2, which is 256 or more from amount 8 on. -/
theorem shiftResults : Obligations.ShiftResults := by
  unfold Obligations.ShiftResults
  have hshl : FrrWrites .shl aluShl := frrWrites_of_aluFrame fun _ _ => rfl
  refine ⟨frrWrites_of_aluFrame aluShl_eq_ofNat,
    frrEncodingAndFaults_of_withTwoRegs,
    fun s ra rb hmode => ?_, fun s ra rb hmode => ?_,
    frrEncodingAndFaults_of_withTwoRegs,
    fun s ra rb hamount => ⟨?_, ?_⟩⟩
  · rw [exec_shr, hmode, aluShr_right_eq_ofNat]
  · rw [exec_shr, hmode, aluShr, aluShl_eq_ofNat]
  · rw [hshl, aluShl_eq_zero hamount]
  · rw [exec_shr, aluShr_eq_zero hamount]

/-- Settles O16: the quotient is that of natural numbers, and the zero check comes after both
register checks. -/
theorem divideResult : Obligations.DivideResult := by
  unfold Obligations.DivideResult
  refine ⟨fun s ra rb hd => ⟨_, (exec_div s ra rb).trans (if_neg hd), ?_⟩,
    fun s ra rb hd => (exec_div s ra rb).trans (if_pos hd),
    frrEncodingAndFaults_of_withTwoRegs⟩
  have hpos : 0 < (s.x.get rb).toNat :=
    Nat.pos_of_ne_zero fun h0 => hd (BitVec.eq_of_toNat_eq h0)
  rw [aluDiv_toNat]
  exact ⟨Nat.div_mul_le_self _ _, Nat.mul_comm _ _ ▸ Nat.lt_mul_div_succ _ hpos⟩

/-- Settles O17: FL is what `compareFlags` answers, one value in each of the three cases. -/
theorem compareSetsFlags : Obligations.CompareSetsFlags := by
  unfold Obligations.CompareSetsFlags
  exact ⟨fun s ra rb => ⟨_, exec_cmp s ra rb, compareFlags_of_eq, compareFlags_of_gt,
      compareFlags_of_lt⟩,
    frrEncodingAndFaults_of_withTwoRegs⟩

end Sys2Proof.Machine
end

section
/-! PROOFS of the statements about LDI and PRN: their effects, their encodings and the fault of a bad
register byte, and the byte that PRN shows. -/

namespace Sys2Proof.Machine

/-! ## The forms with one register operand, on a byte that names no register -/

/-- R67, R74: whatever a form does after its one register check, a bad byte stops it there. -/
theorem frEncodingAndFaults_of_withReg {mk : Byte → Instr} {op : Byte}
    (henc : ∀ a, encode (mk a) = [op, a] := by exact fun _ => rfl)
    (hexec : ∀ s a, ∃ go, exec (mk a) s = withReg (mk a) a s go := by
      exact fun _ _ => ⟨_, rfl⟩) :
    FrEncodingAndFaults mk op := by
  intro s a
  obtain ⟨go, hgo⟩ := hexec s a
  have hop : opcodeByte (mk a) = op := (List.cons.inj (henc a)).1
  refine ⟨henc a, fun ha => ?_⟩
  rw [hgo, withReg_invalid _ ha, hop, State.takeFault]

/-! ## The results -/

/-- R120. -/
theorem exec_ldi (s : State) (r : Reg) (imm : Byte) : exec (.ldi r.byte imm) s =
    .next { s with x := s.x.set r imm, pc := s.pc + 3 } := by
  simp [exec, execLdi, withReg_byte, State.setReg, State.setPc]

/-- Settles O18: on a register LDI is `exec_ldi`, and its one check is that of the register byte,
whatever the immediate. -/
theorem loadImmediateResult : Obligations.LoadImmediateResult := by
  unfold Obligations.LoadImmediateResult
  refine ⟨exec_ldi, fun s a imm => ⟨rfl, fun ha => ?_⟩⟩
  exact withReg_invalid (.ldi a imm) ha s _

/-- Settles O19: on a register PRN is `exec_prn`, and the byte shown is `emitted_eq_some_iff`'s; the
two decimal texts compute. -/
theorem printAppendsTheRegister : Obligations.PrintAppendsTheRegister := by
  unfold Obligations.PrintAppendsTheRegister
  exact ⟨exec_prn, frEncodingAndFaults_of_withReg,
    fun s hs ra hfetch => (emitted_eq_some_iff s _).2 ⟨hs, ra, hfetch, rfl⟩,
    fun _ => rfl⟩

end Sys2Proof.Machine
end

section
/-! PROOFS of the statements about the stack: what PUSH and POP answer, what a PUSH followed by a POP
leaves, and what the forms that store at SP or load from it leave unchanged. -/

namespace Sys2Proof.Machine

/-! ## The register file under two writes -/

theorem Regs.get_set (x : Regs) (r q : Reg) (v : Byte) :
    (x.set r v).get q = if q = r then v else x.get q :=
  (registersAreIndependent x r q v).1

/-- R22: a write to SP and one to another register may trade places. -/
theorem Regs.set_sp_comm (x : Regs) {r : Reg} (v w : Byte) (h : r ≠ .r7) :
    (x.set r v).set .r7 w = (x.set .r7 w).set r v := by
  cases r with
  | r7 => exact absurd rfl h
  | _ => rfl

/-! ## PUSH and POP run to their end -/

/-- R126: the register is read after the decrement. -/
theorem exec_push (s : State) (r : Reg) : exec (.push r.byte) s = .next { s with
    x := s.x.set .r7 (s.x.get .r7 - 1)
    mem := memWrite s.mem (s.x.get .r7 - 1)
      (if r = .r7 then s.x.get .r7 - 1 else s.x.get r)
    pc := s.pc + 2 } := by
  simp [exec, execPush, withReg_byte, State.pushByte, State.setReg, State.store, State.setPc,
    State.reg, State.sp, Regs.get_set]

/-- R127: SP is read and incremented after the register is written. -/
theorem exec_pop (s : State) (r : Reg) : exec (.pop r.byte) s = .next { s with
    x := (s.x.set r (memRead s.mem (s.x.get .r7))).set .r7
      ((s.x.set r (memRead s.mem (s.x.get .r7))).get .r7 + 1)
    pc := s.pc + 2 } := by
  simp [exec, execPop, withReg_byte, State.setReg, State.setPc, State.load, State.reg, State.sp]

/-- Settles O20: on a register PUSH is `exec_push`, and its one check is that of the operand. -/
theorem pushStoresBelowTheStackPointer : Obligations.PushStoresBelowTheStackPointer := by
  unfold Obligations.PushStoresBelowTheStackPointer
  exact ⟨exec_push, frEncodingAndFaults_of_withReg⟩

/-- Settles O21: the SP that POP increments is the one before, or for R7 the byte just loaded. -/
theorem popLoadsFromTheStackPointer : Obligations.PopLoadsFromTheStackPointer := by
  unfold Obligations.PopLoadsFromTheStackPointer
  refine ⟨fun s ra hra => ?_, fun s => ?_, frEncodingAndFaults_of_withReg⟩
  · rw [exec_pop, Regs.get_set_other s.x _ hra.symm]
  · rw [exec_pop, Regs.get_set_self, Regs.set_set]

/-! ## PUSH, then POP -/

/-- R125: after the decrement, a register written and SP incremented again, SP is as before; where
that register is R7 it is its new value that is incremented. -/
theorem Regs.pop_after_push (x : Regs) (r : Reg) (v : Byte) :
    ((x.set .r7 (x.get .r7 - 1)).set r v).set .r7
        (((x.set .r7 (x.get .r7 - 1)).set r v).get .r7 + 1) =
      if r = .r7 then x.set .r7 (v + 1) else x.set r v := by
  split_ifs with h
  · subst h
    simp only [Regs.get_set_self, Regs.set_set]
  · have hsp : ((x.set .r7 (x.get .r7 - 1)).set r v).get .r7 + 1 = x.get .r7 := by
      rw [Regs.get_set_other _ v (Ne.symm h), Regs.get_set_self, BitVec.sub_add_cancel]
    rw [hsp, Regs.set_sp_comm _ _ _ h, Regs.set_set, Regs.set_get]

/-- Settles O48: in a canonical memory POP loads the byte that PUSH stored, and the registers are
those of `Regs.pop_after_push`. -/
theorem pushThenPopRestores : Obligations.PushThenPopRestores := by
  unfold Obligations.PushThenPopRestores
  intro s t u ra rb hm hpush hpop pushed
  obtain rfl := Host.Outcome.next.inj ((exec_push s ra).symm.trans hpush)
  obtain rfl := Host.Outcome.next.inj ((exec_pop _ rb).symm.trans hpop)
  have hload : memRead (memWrite s.mem (s.x.get .r7 - 1) pushed)
      ((s.x.set .r7 (s.x.get .r7 - 1)).get .r7) = pushed := by
    rw [Regs.get_set_self, memRead_memWrite_self hm]
  refine ⟨?_, BitVec.add_assoc s.pc 2 2, rfl⟩
  rw [← Regs.pop_after_push, hload]

/-! ## What the stack forms change -/

/-- R126, R131: the effect of PUSH and CALL is a decrement of SP, one store at `storeAddress` and a
new PC. -/
theorem Effect.stores_at_sp {i : Instr} {s t : State} (h : Effect i s t)
    (hi : ∃ a, i = .push a ∨ i = .call a) : ∃ (a v p : Byte), storeAddress i s = some a ∧
      t = { s with x := s.x.set .r7 (s.x.get .r7 - 1), mem := memWrite s.mem a v, pc := p } := by
  have hsome (ra : Reg) : (if ra.byte.toNat ≤ 7 then some s.spLess else none) =
      some (s.x.get .r7 - 1) := by
    rw [if_pos ra.byte_toNat_le, State.spLess_eq]
  obtain ⟨a, rfl | rfl⟩ := hi
  all_goals
    obtain ⟨ra, rfl, rfl⟩ := h
    exact ⟨_, _, _, hsome ra, rfl⟩

/-- R127, R132: the effect of POP and RET is a new PC and a write to SP, after one to POP's
destination. -/
theorem Effect.loads_at_sp {i : Instr} {s t : State} (h : Effect i s t)
    (hi : i = .ret ∨ ∃ a, i = .pop a) : ∃ (x : Regs) (p : Byte), t = { s with x := x, pc := p } ∧
      ∀ r : Reg, r ≠ .r7 → destinationByte i ≠ some r.byte → x.get r = s.x.get r := by
  obtain rfl | ⟨a, rfl⟩ := hi
  · obtain rfl := h
    exact ⟨_, _, rfl, fun r hr _ => Regs.get_set_other s.x _ hr⟩
  · obtain ⟨ra, rfl, rfl⟩ := h
    refine ⟨_, _, rfl, fun r hr hdest => ?_⟩
    have hra : r ≠ ra := by rintro rfl; exact hdest rfl
    rw [Regs.get_set_other _ _ hr, Regs.get_set_other _ _ hra]

/-- Settles O35: an effect writes SP, the PC and one byte at `storeAddress`, and a fault writes the
latch alone. -/
theorem storingFormsFrame : Obligations.StoringFormsFrame := by
  unfold Obligations.StoringFormsFrame
  intro i s t hi h
  have hlatch := exec_latchFrame h
  rcases exec_effect_or_latch h with he | ⟨l, -, rfl⟩
  · obtain ⟨a, v, p, haddr, rfl⟩ := he.stores_at_sp hi
    refine ⟨fun r hr => Regs.get_set_other s.x _ hr, rfl, rfl, rfl, rfl, fun b hb => ?_, hlatch⟩
    exact memRead_memWrite_other s.mem v fun hba => hb (hba ▸ haddr)
  · exact ⟨fun _ _ => rfl, rfl, rfl, rfl, rfl, fun _ _ => rfl, hlatch⟩

/-- Settles O36: an effect writes registers and the PC, the registers as `Effect.loads_at_sp` says,
and a fault writes the latch alone. -/
theorem poppingFormsFrame : Obligations.PoppingFormsFrame := by
  unfold Obligations.PoppingFormsFrame
  intro i s t hi h
  have hlatch := exec_latchFrame h
  rcases exec_effect_or_latch h with he | ⟨l, -, rfl⟩
  · obtain ⟨x, p, rfl, hx⟩ := he.loads_at_sp hi
    exact ⟨hx, rfl, rfl, rfl, rfl, fun _ => rfl, hlatch⟩
  · exact ⟨fun _ _ _ => rfl, rfl, rfl, rfl, rfl, fun _ => rfl, hlatch⟩

end Sys2Proof.Machine
end

section
/-! PROOFS of the statements about control transfer: where CALL, RET, JMP, JEQ and JNE leave the PC,
the check of their operand, and that a CALL of a RET comes back. -/

namespace Sys2Proof.Machine

/-! ## CALL, RET and the jumps run to their end -/

/-- R132. -/
theorem exec_ret (s : State) : exec .ret s = .next { s with
    pc := memRead s.mem (s.x.get .r7), x := s.x.set .r7 (s.x.get .r7 + 1) } := by
  simp [exec, execRet, State.setPc, State.setReg, State.load, State.reg, State.sp]

/-- R133. -/
theorem exec_jmp (s : State) (r : Reg) : exec (.jmp r.byte) s =
    .next { s with pc := s.x.get r } :=
  withReg_byte (.jmp r.byte) r s _

/-- R134, on any operand byte: only a taken jump looks at it. -/
theorem exec_jeq_ite (s : State) (a : Byte) : exec (.jeq a) s =
    if s.fl.getLsbD 0 = true then jumpTo (.jeq a) a s else .next { s with pc := s.pc + 2 } := by
  rw [exec, execJeq, State.eFlag, State.pcPlus_eq, State.setPc]
  rfl

/-- R135, on any operand byte: only a taken jump looks at it. -/
theorem exec_jne_ite (s : State) (a : Byte) : exec (.jne a) s =
    if s.fl.getLsbD 0 = false then jumpTo (.jne a) a s else .next { s with pc := s.pc + 2 } := by
  rw [exec, execJne, State.eFlag, State.pcPlus_eq, State.setPc]
  rfl

theorem jumpTo_invalid (i : Instr) {a : Byte} (h : 7 < a.toNat) (s : State) :
    jumpTo i a s = .next (s.takeFault .invalidRegister (opcodeByte i) a) :=
  withReg_invalid i h s _

/-! ## What each form does -/

/-- Settles O22: on a register CALL is `exec_call`, and its one check is that of the operand. -/
theorem callPushesTheReturnAddress : Obligations.CallPushesTheReturnAddress := by
  unfold Obligations.CallPushesTheReturnAddress
  exact ⟨fun s ra => by rw [exec_call, Regs.get_set], frEncodingAndFaults_of_withReg⟩

/-- Settles O23: RET is `exec_ret`, and its one byte decodes by itself. -/
theorem returnPopsThePc : Obligations.ReturnPopsThePc := by
  unfold Obligations.ReturnPopsThePc
  exact ⟨exec_ret, rfl, fun p => decode_of_no_operands (i := .ret) rfl rfl⟩

/-- Settles O24: on a register JMP is `exec_jmp`, and its one check is that of the operand. -/
theorem jumpSetsThePc : Obligations.JumpSetsThePc := by
  unfold Obligations.JumpSetsThePc
  exact ⟨exec_jmp, frEncodingAndFaults_of_withReg⟩

/-- Settles O25: bit 0 of FL alone decides between the two arms, and only the taken one checks its
operand. -/
theorem conditionalJumps : Obligations.ConditionalJumps := by
  unfold Obligations.ConditionalJumps
  refine ⟨fun s ra hE => ?_, fun s a hE => ?_, fun s a hE ha => ?_,
    fun s ra hE => ?_, fun s a hE => ?_, fun s a hE ha => ?_, fun a => ⟨rfl, rfl⟩⟩
  · rw [exec_jeq, if_pos hE]
  · rw [exec_jeq_ite, if_neg (by rw [hE]; decide)]
  · rw [exec_jeq_ite, if_pos hE, jumpTo_invalid _ ha, opcodeByte, State.takeFault]
  · rw [exec_jne, if_pos hE]
  · rw [exec_jne_ite, if_neg (by rw [hE]; decide)]
  · rw [exec_jne_ite, if_pos hE, jumpTo_invalid _ ha, opcodeByte, State.takeFault]

/-! ## CALL, then RET -/

/-- A step from RUN that ends in RUN raised no fault, so it is the effect of what was decoded. -/
theorem effect_of_step_run {s t : State} {i : Instr} (hs : s.status = .run)
    (hi : s.fetched = .ok i) (h : step s = .next t) (ht : t.status = .run) : Effect i s t := by
  rw [step_decoded hs hi] at h
  rcases exec_cases h with he | ⟨c, v, ho, rfl⟩
  · exact he
  · exact absurd ((State.status_run_iff _).1 ht).1 ho.code_ne_none

/-- R69, R132: the byte 0x11 at the PC is a RET, whatever follows it. -/
theorem fetched_ret {s : State} (h : memRead s.mem s.pc = 0x11) : s.fetched = .ok .ret := by
  rw [s.fetched_eq, h]
  exact decode_of_no_operands (i := .ret) rfl rfl _ _

/-- Settles O49: RET loads the byte CALL stored at the decremented SP, which a canonical memory
gives back, and increments that SP again. -/
theorem callThenReturnComesBack : Obligations.CallThenReturnComesBack := by
  unfold Obligations.CallThenReturnComesBack
  intro s t u a hm hs hcall hst ht hop htu
  obtain ⟨ra, rfl, rfl⟩ := effect_of_step_run hs hcall hst ht
  rw [step_decoded ht (fetched_ret hop), exec_ret] at htu
  obtain rfl := Host.Outcome.next.inj htu
  have hload : memRead (memWrite s.mem (s.x.get .r7 - 1) (s.pc + 2))
      ((s.x.set .r7 (s.x.get .r7 - 1)).get .r7) = s.pc + 2 := by
    rw [Regs.get_set_self, memRead_memWrite_self hm]
  have hregs : (s.x.set .r7 (s.x.get .r7 - 1)).set .r7
      ((s.x.set .r7 (s.x.get .r7 - 1)).get .r7 + 1) = s.x := by
    rw [Regs.get_set_self, BitVec.sub_add_cancel, Regs.set_set, Regs.set_get]
  simp only [hload, hregs]

end Sys2Proof.Machine
end

section
/-! PROOFS of the statements about exceptions: which fault a step raises, that it writes the latch
alone and ends the run, and which faults are left to an instruction whose operands name registers. -/

namespace Sys2Proof.Machine

/-! ## The fault that the spec's priority picks -/

/-- R147: the fault that the priority picks is the whole step, and it writes the latch alone. -/
theorem step_of_expectedFault {s : State} {c : FaultCode} {v : Byte} (hs : s.status = .run)
    (hf : expectedFault s = some (c, v)) :
    step s = .next { s with fault := ⟨c, s.pc, memRead s.mem s.pc, v⟩ } := by
  have h := step_takesFault hs
  rwa [hf] at h

/-- R145: where the priority picks nothing, the step leaves the latch as it was. -/
theorem step_keeps_fault_of_expectedFault_none {s : State} (hs : s.status = .run)
    (hf : expectedFault s = none) : ∃ t, step s = .next t ∧ t.fault = s.fault := by
  have h := step_takesFault hs
  rwa [hf] at h

/-- R32, R140: only InvalidRegister records an operand byte. -/
theorem operand_eq_zero_of_expectedFault {s : State} {c : FaultCode} {v : Byte}
    (hf : expectedFault s = some (c, v)) (hc : c ≠ .invalidRegister) : v = 0 := by
  simp only [expectedFault] at hf
  split_ifs at hf <;> cases hf
  · rfl
  · rfl
  · exact absurd rfl hc
  · exact absurd rfl hc
  · rfl

/-- Settles O41: each case of the priority is one of the two lemmas above. -/
theorem faultPriority : Obligations.FaultPriority := by
  unfold Obligations.FaultPriority
  intro s hs
  cases hf : expectedFault s with
  | none => exact step_keeps_fault_of_expectedFault_none hs hf
  | some p => exact step_of_expectedFault hs hf

/-- Settles O40: a step that ends FAULTED took the fault that the priority picks, which is the whole
step, and in FAULTED no step is taken. -/
theorem faultsArePreciseAndTerminal : Obligations.FaultsArePreciseAndTerminal := by
  unfold Obligations.FaultsArePreciseAndTerminal
  intro s t hs h ht
  obtain ⟨⟨c, v⟩, hf⟩ := Option.ne_none_iff_exists'.1 ((step_faulted_iff hs h).1 ht)
  have hprecise := Host.Outcome.next.inj (h.symm.trans (step_of_expectedFault hs hf))
  exact ⟨⟨c, v, hf, operand_eq_zero_of_expectedFault hf, hprecise⟩,
    runSteps_idle (by rw [ht]; decide)⟩

/-! ## Instructions whose operands name registers -/

/-- R143: every register operand of a well-formed instruction is at most 7. -/
theorem registerOperand_le_of_wellFormed {p : Params} {i : Instr} {v : Byte}
    (hw : wellFormed p i = true) (hv : v ∈ registerOperands i) : v.toNat ≤ 7 := by
  obtain ⟨-, hall⟩ := Bool.and_eq_true_iff.1 hw
  exact of_decide_eq_true (List.all_eq_true.1 hall v hv)

/-- Settles O42: an effect keeps the latch, and of an instruction's own faults InvalidRegister asks
for an operand that names no register. -/
theorem wellFormedInstructionsFaultOnlyOnZero :
    Obligations.WellFormedInstructionsFaultOnlyOnZero := by
  unfold Obligations.WellFormedInstructionsFaultOnlyOnZero
  intro i s t hw h
  rcases exec_cases h with he | ⟨c, v, ⟨-, hv, hmem⟩ | ⟨rfl, -, hzero⟩ | ⟨rfl, -, hdiv⟩, rfl⟩
  · exact .inl he.fault_params.1
  · exact absurd (registerOperand_le_of_wellFormed hw hmem) (Nat.not_le_of_lt hv)
  · exact .inr (.inr ⟨rfl, hzero⟩)
  · exact .inr (.inl ⟨rfl, hdiv⟩)

end Sys2Proof.Machine
end

section
/-! PROOFS of the statements about reset and boot: the values reset leaves, the invariant at reset, and
the boot of an image as one move of the block. -/

namespace Sys2Proof.Machine

/-! ## Reset -/

/-- R165: the state at creation is what a reset of it leaves. -/
theorem State.assertReset_reset : State.reset.assertReset = State.reset := rfl

/-- R165, R168: reset ends in RUN, whatever memory the host leaves. -/
theorem State.status_assertReset_with_mem (s : State) (m : Memory) :
    { s.assertReset with mem := m }.status = .run :=
  (State.status_run_iff _).2 ⟨rfl, rfl⟩

/-- Settles O52: the state at creation is one that reset leaves too, and reset's own rules give each
value. -/
theorem resetValues : Obligations.ResetValues := by
  unfold Obligations.ResetValues
  refine ⟨fun s hs => ?_, State.assertReset_mem⟩
  obtain ⟨u, rfl⟩ : ∃ u : State, s = u.assertReset :=
    hs.elim (fun h => ⟨State.reset, h.trans State.assertReset_reset.symm⟩) id
  exact ⟨u.assertReset_x, u.assertReset_pc, u.assertReset_fl, u.assertReset_running,
    u.assertReset_fault, u.assertReset_out, u.status_assertReset_with_mem u.mem⟩

/-- Settles O54: memory lists nothing, FL is 0x00, and the latch is clear. -/
theorem resetMeetsTheInvariant : Obligations.ResetMeetsTheInvariant :=
  .of_clear wf_reset (by decide) rfl

/-! ## Host writes that leave a given memory -/

/-- The 256 addresses of R45, rising. -/
def allAddresses : List Byte := (List.range Config.memorySize).map (BitVec.ofNat 8)

theorem mem_allAddresses (a : Byte) : a ∈ allAddresses :=
  List.mem_map.2 ⟨a.toNat, List.mem_range.2 a.isLt, by simp⟩

/-- One host write for every address, with the byte that `n` holds there. -/
def writesOf (n : Memory) : List (Byte × Byte) := allAddresses.map fun a => (a, memRead n a)

/-- Writes whose byte is given by the address are read back at the addresses written, in whatever
order they come. -/
theorem memRead_hostWrites_map {m : Memory} (hm : Memory.wf m = true) (f : Byte → Byte)
    (addrs : List Byte) (b : Byte) : memRead (hostWrites (addrs.map fun a => (a, f a)) m) b =
      if b ∈ addrs then f b else memRead m b := by
  induction addrs generalizing m with
  | nil => rfl
  | cons a addrs ih =>
    rw [List.map_cons, hostWrites, ih (wf_memWrite hm a (f a)), memRead_memWrite hm]
    by_cases hb : b = a
    · simp [hb]
    · simp [hb]

/-- R37: under `rst` the host can turn any canonical memory into any other. -/
theorem hostWrites_writesOf {m n : Memory} (hm : Memory.wf m = true) (hn : Memory.wf n = true) :
    hostWrites (writesOf n) m = n := by
  refine equalReadsGiveEqualMemories _ _ (wf_hostWrites _ hm) hn fun a => ?_
  rw [writesOf, memRead_hostWrites_map hm, if_pos (mem_allAddresses a)]

/-! ## Boot -/

/-- R63: an image longer than memory does not boot. -/
theorem boot_of_long {image : List Byte} (h : Config.memorySize < image.length) (s : State) :
    boot image s = none := by
  rw [boot, loadImage_of_long h]

theorem boot_of_loadImage {image : List Byte} {n : Memory} (h : loadImage image = some n)
    (s : State) : boot image s = some { s.assertReset with mem := n } := by
  rw [boot, h]

/-- R168: a move under `rst` whose writes spell out `n` leaves the reset values with `n`. -/
theorem blockMove_writesOf {s : State} {n : Memory} (hs : Memory.wf s.mem = true)
    (hn : Memory.wf n = true) :
    blockMove (.assertReset (writesOf n)) s = .next { s.assertReset with mem := n } := by
  rw [blockMove, hostWrites_writesOf hs hn]

/-- Settles O60: the length decides whether the image is placed; the move writes every cell of the
placed image's memory, so nothing of the old memory is left. -/
theorem bootStartsTheImage : Obligations.BootStartsTheImage := by
  unfold Obligations.BootStartsTheImage
  refine fun image s hs => ⟨fun hlen => boot_of_long hlen s, fun hlen => ?_⟩
  have hload := loadImage_of_fits hlen
  exact ⟨_, _, boot_of_loadImage hload s, blockMove_writesOf hs (wf_loadImage hload),
    s.status_assertReset_with_mem _, rfl, rfl, memRead_loadImage hload⟩

end Sys2Proof.Machine
end
